-- ==== Sys2Proof/Word.lean ====
section
/-! DEFINITION. The value widths of the machine (10_state.md R20 to R23, 00_scope.md R5 to R7). -/

namespace Sys2Proof

/-- A byte: one general register, one byte of memory, the delay timer (R20, R29, R50). -/
abbrev Byte := BitVec 8

/-- A 16-bit word: an opcode, the pc, I, a stack entry (R6, R22, R23, R26). -/
abbrev Word := BitVec 16

/-- A general register's number, 0 to 15 (R20). -/
abbrev RegIdx := Fin 16

/-- A key's number, 0 to 15: the case of another index cannot be expressed (R30, R200, U25; log 23). -/
abbrev KeyIdx := Fin 16

/-- VF, the one flag register, is general register 15 (R21). -/
abbrev VF : RegIdx := 15

/-- `PROG_ORIGIN`: where a program is loaded and where the pc starts (R5, R56, R250). -/
abbrev progOrigin : Word := 0x0200#16

end Sys2Proof
end

