-- ==== Sys2Proof/Config.lean ====
section
/-! DEFINITION. What an implementation fixes (00_scope.md R4), and the one free value (41_alu.md R134). -/

namespace Sys2Proof

/-- `MEM_SIZE`: the default 4096 or the one other admitted value 4095 (R4, D1). -/
inductive MemSize
  | full    -- 4096 bytes, addresses 0x000 to 0xFFF
  | short   -- 4095 bytes: address 0xFFF does not exist
  deriving DecidableEq, Repr

/-- How many bytes of memory there are. -/
def MemSize.bytes : MemSize → Nat
  | .full => 4096
  | .short => 4095

/-- `DRAW_EDGE_POLICY`: what Dxyn does with a pixel outside the framebuffer (R4, R173, D3). -/
inductive EdgePolicy
  | clip   -- the pixel is dropped
  | wrap   -- its coordinates are reduced modulo 64 and 32
  deriving DecidableEq, Repr

/-- The three implementation parameters of R4. They stand in State and no transaction writes them, so
that a statement about every state holds for every admitted value (log 2, DESIGN CHOICE, safe). -/
structure Config where
  memSize    : MemSize
  stackDepth : Nat
  edgePolicy : EdgePolicy
  deriving DecidableEq, Repr

/-- The defaults of R4: 4096 bytes (D1), 16 return addresses (D2; PRESUMED, log 2, from general
knowledge as the spec says), clip (D3). -/
def Config.standard : Config := { memSize := .full, stackDepth := 16, edgePolicy := .clip }

/-- How many bytes of memory the machine has, `MEM_SIZE`. -/
def Config.memBytes (c : Config) : Nat := c.memSize.bytes

/-- The byte that the n-th call of `rand8()` yields: a FREE VALUE. It has no body, so nothing can be
proved of it and a claim about Cxnn holds for every sequence of bytes (R134, D11; log 3, safe). -/
opaque Config.randByte : Nat → Byte

end Sys2Proof
end

