-- ==== Sys2Proof/Machine/State.lean ====
section
/-! DEFINITION. The state of the machine (10_state.md), the fatal errors it can latch, and its value at reset. -/

namespace Sys2Proof.Machine

/-- The fatal errors (60_exceptions.md R220 to R223). A raising step takes the error as R224 describes:
it commits nothing and latches the error in `State.fault`, so the outcome of that step is a NEXT state.
No step of this model ends in `Outcome.fault` (log 1). -/
inductive Fault
  /-- Raised by `step` when the fetched opcode selects no row of R73 (R220). Safe: the spec's own error. -/
  | decodeError (opcode addr : Word)
  /-- Raised by 00EE when the stack is empty (R221). Safe: the spec's own error. -/
  | stackUnderflow (opcode addr : Word)
  /-- Raised by 2nnn when the stack is full (R222, the spec's decision D2). Safe: the spec's own error. -/
  | stackOverflow (opcode addr : Word)
  /-- Raised by fetch, Dxyn, Fx33, Fx55 and Fx65 at a byte address of `MEM_SIZE` or more (R223). The address
  is a natural number: I + k is not reduced (R55). Safe: the spec's own error. -/
  | boundsError (addr : Nat)
  deriving DecidableEq, Repr

/-- Why something has no meaning in the model. -/
inductive Refusal
  /-- An instruction without a meaning yet. Raised by `exec` only; no arm does so any more. Safe. -/
  | notModelled (mnemonic : String)
  /-- A program image longer than `MEM_SIZE - 0x200`: the host refuses it and the machine is not started
  (70_reset_and_hazards.md R252, U10). Raised by `resetAndLoad`, by no step. Safe. -/
  | imageTooLong (length capacity : Nat)
  deriving DecidableEq, Repr

/-- Memory: the bytes that differ from what an unlisted address reads as, addresses strictly rising
(20_memory.md R50; `Memory.wf` in Machine/Ops.lean). -/
abbrev Memory := List Host.Cell

/-- The framebuffer: 32 rows from the top, each 64 pixels; column 0 is the row's most significant bit
(R28; the place of a column in the word is the model's, log 16). -/
abbrev Framebuffer := Vector (BitVec 64) 32

/-- One flag for each of the 16 keys: the key latch, or a set of keys (R30, R33). -/
abbrev KeySet := Vector Bool 16

/-- The key-wait unit of Fx0A (R33). -/
structure KeyWait where
  /-- false: Idle; true: Waiting. -/
  waiting   : Bool
  /-- The keys whose key-down the host reported while Waiting. -/
  pending   : KeySet
  /-- The key of the latest qualifying key-up. -/
  completed : Option KeyIdx
  deriving DecidableEq, Repr

/-- The state (R31: the list is complete), and three fields of the model's own: `cfg`, `draws`, `notices`. -/
structure State where
  /-- V0 to VF (R20, R21). -/
  v       : Vector Byte 16
  /-- I, the address register (R22). -/
  i       : Word
  /-- The program counter (R23). -/
  pc      : Word
  /-- The call stack, oldest entry first (R26, R12). -/
  stack   : List Word
  /-- Memory (R27). -/
  mem     : Memory
  /-- The framebuffer (R28). -/
  fb      : Framebuffer
  /-- DT, the delay timer (R29). -/
  dt      : Byte
  /-- The key latch (R30). -/
  keys    : KeySet
  /-- The key-wait unit (R33). -/
  kw      : KeyWait
  /-- The fault latch (R32). -/
  fault   : Option Fault
  /-- MODEL'S OWN: the implementation parameters, which nothing writes (R4, R34; log 2). -/
  cfg     : Config
  /-- MODEL'S OWN: how many random bytes were drawn; the next one is `Config.randByte draws` (R134; log 3). -/
  draws   : Nat
  /-- MODEL'S OWN: how many display-notify events were emitted (R172; log 4). -/
  notices : Nat
  deriving DecidableEq, Repr

/-- Key-wait at reset: Idle, with empty bookkeeping (R35). -/
def KeyWait.idle : KeyWait :=
  { waiting := false, pending := Vector.replicate 16 false, completed := none }

/-- The reset values of R35 with an empty program image, for a machine of configuration `c` (log 5).
The counters `draws` and `notices` start at 0: DESIGN CHOICE (logs 3, 4). -/
def State.powerOn (c : Config) : State :=
  { v := Vector.replicate 16 0#8
    i := 0#16
    pc := progOrigin
    stack := []
    mem := []
    fb := Vector.replicate 32 0#64
    dt := 0#8
    keys := Vector.replicate 16 false
    kw := KeyWait.idle
    fault := none
    cfg := c
    draws := 0
    notices := 0 }

/-- The machine right after reset, with the default parameters and no program (R35, R250). -/
def State.reset : State := State.powerOn Config.standard

end Sys2Proof.Machine
end

