-- ==== Sys2Proof/Machine/Ops.lean ====
section
/-! DEFINITION. The named operations over memory, registers, pc and stack, and taking a fatal error. -/

namespace Sys2Proof.Machine

/-- What every step and every meaning answers. -/
abbrev Result := Host.Outcome State Fault Refusal

/-! ### Memory (20_memory.md) -/

/-- What an address that memory does not list reads as: zero, the reset contents of R35 (log 6). -/
def Memory.blankByte : Byte := 0x00#8

/-- The canonical form: addresses strictly rising, and no entry that an unlisted address would read as. -/
abbrev Memory.wf (m : Memory) : Prop :=
  m.Pairwise (fun p q => p.1 < q.1) ∧ ∀ p ∈ m, p.2 ≠ Memory.blankByte

/-- The byte at an address (R50). -/
def Memory.get : Memory → Nat → Byte
  | [], _ => Memory.blankByte
  | (a', b) :: m, a => if a' = a then b else Memory.get m a

/-- An entry for `(a, b)` in front of a memory whose addresses lie above `a`, if it needs one. -/
def Memory.cons (a : Nat) (b : Byte) (m : Memory) : Memory :=
  if b = Memory.blankByte then m else (a, b) :: m

/-- Store one byte, keeping the canonical form (R50). -/
def Memory.set : Memory → Nat → Byte → Memory
  | [], a, b => Memory.cons a b []
  | (a', b') :: m, a, b =>
    if a' < a then (a', b') :: Memory.set m a b
    else if a' = a then Memory.cons a b m
    else Memory.cons a b ((a', b') :: m)

/-- Store bytes at consecutive addresses, the first at `a`, in ascending order (R53). -/
def Memory.setAll : Memory → Nat → List Byte → Memory
  | m, _, [] => m
  | m, a, b :: bs => Memory.setAll (Memory.set m a b) (a + 1) bs

/-- The bytes at `n` consecutive addresses, the first at `a`. -/
def Memory.getAll (m : Memory) (a : Nat) : Nat → List Byte
  | 0 => []
  | n + 1 => m.get a :: Memory.getAll m (a + 1) n

/-- The first address of `a` to `a + n - 1`, ascending, at which there is no byte (R10, R55, R223). The
addresses are natural numbers: nothing wraps (R55, the spec's decision D8; log 9). -/
def firstOutside (size a : Nat) : Nat → Option Nat
  | 0 => none
  | n + 1 => if size ≤ a then some a else firstOutside size (a + 1) n

/-- Read `n` bytes from `a`; every address is checked before anything happens (R10, R55). -/
def readBytes (s : State) (a n : Nat) : Except Fault (List Byte) :=
  match firstOutside s.cfg.memBytes a n with
  | some bad => .error (.boundsError bad)
  | none => .ok (s.mem.getAll a n)

/-- Store the bytes from `a` on; every address is checked before anything is stored, so that a bad
address leaves all of memory as it was (R10, R62). -/
def storeBytes (s : State) (a : Nat) (bs : List Byte) : Except Fault State :=
  match firstOutside s.cfg.memBytes a bs.length with
  | some bad => .error (.boundsError bad)
  | none => .ok { s with mem := s.mem.setAll a bs }

/-! ### Registers (10_state.md R20) -/

/-- V[x]. No register is hard-wired or banked (R20). -/
def State.V (s : State) (x : RegIdx) : Byte := s.v[x]

/-- V[x] <- b. -/
def State.setV (s : State) (x : RegIdx) (b : Byte) : State := { s with v := s.v.set x b }

/-- Load consecutive registers, the first with number `k`, in ascending order (R154). -/
def loadRegs : Vector Byte 16 → Nat → List Byte → Vector Byte 16
  | v, _, [] => v
  | v, k, b :: bs => loadRegs (v.setIfInBounds k b) (k + 1) bs

/-! ### The program counter (R24, R25) -/

/-- pc <- (pc + 2) mod 65536. -/
def State.advance (s : State) : State := { s with pc := s.pc + 2#16 }

/-- A skip: pc <- (pc + 4) mod 65536 when the condition holds, else (pc + 2) mod 65536. Nothing at the
skipped address is fetched or decoded (40_control_flow.md R108). -/
def State.skipIf (s : State) (c : Bool) : State := { s with pc := if c then s.pc + 4#16 else s.pc + 2#16 }

/-- pc <- zext_16(nnn) (R78). -/
def State.jump (s : State) (nnn : BitVec 12) : State := { s with pc := nnn.zeroExtend 16 }

/-! ### The call stack (R12, R26) -/

/-- Append the newest element. -/
def State.push (s : State) (w : Word) : State := { s with stack := s.stack ++ [w] }

/-- The newest element, and the state without it; none of an empty stack. -/
def State.pop (s : State) : Option (Word × State) :=
  s.stack.getLast?.map (fun w => (w, { s with stack := s.stack.dropLast }))

/-! ### Keys -/

/-- `k` is a member of the set, or is held down. -/
def KeySet.has (ks : KeySet) (k : KeyIdx) : Bool := ks[k]

/-- The set with `k`. -/
def KeySet.insert (ks : KeySet) (k : KeyIdx) : KeySet := ks.set k true

/-- The set without `k`. -/
def KeySet.erase (ks : KeySet) (k : KeyIdx) : KeySet := ks.set k false

/-- The set with no key. -/
def KeySet.empty : KeySet := Vector.replicate 16 false

/-! ### Fatal errors (60_exceptions.md R224) -/

/-- Taking a fatal error, the machine's whole trap entry (R224): nothing of the step is committed, the pc
keeps the address of the offending instruction, and the latch records the error, which is the report to
the host. There is no vector, no saved register and no mode. There is no return from it either (R225):
only `resetAndLoad` (Machine/Load.lean) clears the latch. -/
def raise (e : Fault) (s : State) : Result := .next { s with fault := some e }

/-- Go on with what an operation answers, or take the error it raises in the state `s`, the state
before the instruction (R8: the working copy is thrown away). -/
def orRaise {α : Type} (s : State) (r : Except Fault α) (k : α → State) : Result :=
  match r with
  | .error e => raise e s
  | .ok a => .next (k a)

/-- The number that 60_exceptions.md's table gives an error (the spec's decision D22; nothing depends on it). -/
def Fault.code : Fault → Nat
  | .decodeError _ _ => 1
  | .stackUnderflow _ _ => 2
  | .stackOverflow _ _ => 3
  | .boundsError _ => 4

end Sys2Proof.Machine
end

