-- ==== Sys2Proof/Machine/Flags.lean ====
section
/-! DEFINITION. The results and the values of VF that the arithmetic and shift instructions compute
(10_state.md R21, 41_alu.md R127 to R132). Results are computed exactly and then reduced modulo 256. -/

namespace Sys2Proof.Machine

/-- A condition as the byte 1 or 0. -/
def flagByte (c : Bool) : Byte := if c then 1#8 else 0#8

/-- sum <- a + b, an integer 0 to 510 (R127). -/
def exactSum (a b : Byte) : Nat := a.toNat + b.toNat

/-- sum mod 256. -/
def sumByte (a b : Byte) : Byte := BitVec.ofNat 8 (exactSum a b % 256)

/-- 1 if sum > 255, else 0: the carry (R127). -/
def carryFlag (a b : Byte) : Byte := flagByte (decide (exactSum a b > 255))

/-- diff <- a - b, an integer -255 to 255 (R128, R130). -/
def exactDiff (a b : Byte) : Int := (a.toNat : Int) - (b.toNat : Int)

/-- diff mod 256, the mathematical modulus (R7, R128). -/
def diffByte (a b : Byte) : Byte := BitVec.ofInt 8 (exactDiff a b % 256)

/-- 0 if diff < 0, else 1: one means no borrow (R128, R130). -/
def noBorrowFlag (a b : Byte) : Byte := flagByte (!decide (exactDiff a b < 0))

/-- t & 1, the bit that a right shift moves out (R129). -/
def lowBitFlag (t : Byte) : Byte := t &&& 1#8

/-- t >> 7, the bit that a left shift moves out, as 0 or 1 (R131). -/
def highBitFlag (t : Byte) : Byte := t >>> 7

/-- t >> 1, logical (R129). -/
def shiftRightByte (t : Byte) : Byte := t >>> 1

/-- (t << 1) mod 256 (R131). -/
def shiftLeftByte (t : Byte) : Byte := t <<< 1

end Sys2Proof.Machine
end

