-- ==== Sys2Proof/Machine/Operands.lean ====
section
/-! DEFINITION. The operand forms: a register, an immediate, memory at I + k, a block of registers, the
key a register names, and the random byte (30_encoding.md R78, 42_index_memory.md R155). -/

namespace Sys2Proof.Machine

/-- The effective address I + k, an unreduced natural number (R155, R55). -/
def State.dataAddr (s : State) (k : Nat) : Nat := s.i.toNat + k

/-- The `n` bytes of memory from I on (R155). -/
def State.loadAtI (s : State) (n : Nat) : Except Fault (List Byte) := readBytes s (s.dataAddr 0) n

/-- Store bytes from I on (R155). -/
def State.storeAtI (s : State) (bs : List Byte) : Except Fault State := storeBytes s (s.dataAddr 0) bs

/-- The values of V0 to V[x], x + 1 registers, V0 first (R153). -/
def State.regsUpTo (s : State) (x : RegIdx) : List Byte := s.v.toList.take (x.val + 1)

/-- The key that a register's value names: its low nibble, V[x] & 0xF (R78, R190). -/
def keyOf (b : Byte) : KeyIdx := Fin.ofNat 16 (b &&& 0x0F#8).toNat

/-- zext_8(k) of a key's number (R194). -/
def keyByte (k : KeyIdx) : Byte := BitVec.ofNat 8 k.val

/-- The three decimal digits of a byte, hundreds first, each as a number 0 to 9 (R152). -/
def decimalDigits (b : Byte) : List Byte :=
  [BitVec.ofNat 8 (b.toNat / 100), BitVec.ofNat 8 (b.toNat / 10 % 10), BitVec.ofNat 8 (b.toNat % 10)]

/-- `rand8()`: the next free byte, and the state in which it is used up (R134; log 3). -/
def State.rand8 (s : State) : Byte × State := (Config.randByte s.draws, { s with draws := s.draws + 1 })

end Sys2Proof.Machine
end

