-- ==== Sys2Proof/Machine/Alu.lean ====
section
/-! DEFINITION. 6xnn, 7xnn, 8xy0 to 8xy7, 8xyE, Cxnn (41_alu.md). The statements of each rule stand in the
order written, each seeing the earlier ones, which decides what VF holds when x = 0xF (R120, the spec's
decision D5; log 7). Every meaning ends with pc <- (pc + 2) mod 65536, and none raises. -/

namespace Sys2Proof.Machine

/-- V[x] <- b and on to the next instruction. -/
def writeV (x : RegIdx) (b : Byte) (s : State) : Result := .next (s.setV x b).advance

/-- V[0xF] <- flag, then V[x] <- b, and on (R127, R128, R130). -/
def writeFlagThenV (x : RegIdx) (flag b : Byte) (s : State) : Result :=
  .next ((s.setV VF flag).setV x b).advance

/-- V[x] <- t, V[0xF] <- flag, then V[x] <- shift of V[x] read again, and on (R129, R131). -/
def writeShifted (x : RegIdx) (t flag : Byte) (shift : Byte → Byte) (s : State) : Result :=
  let s₂ := (s.setV x t).setV VF flag
  .next (s₂.setV x (shift (s₂.V x))).advance

/-- LD_IMM (R121). -/
def execLdImm (x : RegIdx) (nn : Byte) (s : State) : Result := writeV x nn s

/-- ADD_IMM (R122): no flag. -/
def execAddImm (x : RegIdx) (nn : Byte) (s : State) : Result := writeV x (sumByte (s.V x) nn) s

/-- LD_REG (R123). -/
def execLdReg (x y : RegIdx) (s : State) : Result := writeV x (s.V y) s

/-- OR (R124): no flag. -/
def execOr (x y : RegIdx) (s : State) : Result := writeV x (s.V x ||| s.V y) s

/-- AND (R125): no flag. -/
def execAnd (x y : RegIdx) (s : State) : Result := writeV x (s.V x &&& s.V y) s

/-- XOR (R126): no flag. -/
def execXor (x y : RegIdx) (s : State) : Result := writeV x (s.V x ^^^ s.V y) s

/-- ADD_REG (R127). -/
def execAddReg (x y : RegIdx) (s : State) : Result :=
  writeFlagThenV x (carryFlag (s.V x) (s.V y)) (sumByte (s.V x) (s.V y)) s

/-- SUB (R128). -/
def execSub (x y : RegIdx) (s : State) : Result :=
  writeFlagThenV x (noBorrowFlag (s.V x) (s.V y)) (diffByte (s.V x) (s.V y)) s

/-- SHR (R129): the source is V[y]. -/
def execShr (x y : RegIdx) (s : State) : Result :=
  writeShifted x (s.V y) (lowBitFlag (s.V y)) shiftRightByte s

/-- SUBN (R130): V[y] - V[x]. -/
def execSubn (x y : RegIdx) (s : State) : Result :=
  writeFlagThenV x (noBorrowFlag (s.V y) (s.V x)) (diffByte (s.V y) (s.V x)) s

/-- SHL (R131): the source is V[y]. -/
def execShl (x y : RegIdx) (s : State) : Result :=
  writeShifted x (s.V y) (highBitFlag (s.V y)) shiftLeftByte s

/-- RND with the byte r drawn (R133). -/
def rndWith (r : Byte) (x : RegIdx) (nn : Byte) (s : State) : Result := writeV x (r &&& nn) s

/-- RND (R133): a fresh free byte at each execution (R134; log 3). -/
def execRnd (x : RegIdx) (nn : Byte) (s : State) : Result := rndWith s.rand8.1 x nn s.rand8.2

end Sys2Proof.Machine
end

