-- ==== Sys2Proof/Syntax.lean ====
section
/-! DEFINITION. The instructions: one constructor per row of spec/opcode_table.json (30_encoding.md R73). -/

namespace Sys2Proof

/-- The 31 instructions, in the table's order. `x` and `y` name general registers, `nn`, `nnn` and `n`
are the immediates of R71. The operand types admit exactly the field values the encoding admits, and
all of them are legal (R77, R78). -/
inductive Instr
  | cls                                  -- 00E0
  | ret                                  -- 00EE
  | jp (nnn : BitVec 12)                 -- 1nnn
  | call (nnn : BitVec 12)               -- 2nnn
  | seImm (x : RegIdx) (nn : Byte)       -- 3xnn
  | sneImm (x : RegIdx) (nn : Byte)      -- 4xnn
  | seReg (x y : RegIdx)                 -- 5xy0
  | ldImm (x : RegIdx) (nn : Byte)       -- 6xnn
  | addImm (x : RegIdx) (nn : Byte)      -- 7xnn
  | ldReg (x y : RegIdx)                 -- 8xy0
  | orReg (x y : RegIdx)                 -- 8xy1
  | andReg (x y : RegIdx)                -- 8xy2
  | xorReg (x y : RegIdx)                -- 8xy3
  | addReg (x y : RegIdx)                -- 8xy4
  | sub (x y : RegIdx)                   -- 8xy5
  | shr (x y : RegIdx)                   -- 8xy6
  | subn (x y : RegIdx)                  -- 8xy7
  | shl (x y : RegIdx)                   -- 8xyE
  | sneReg (x y : RegIdx)                -- 9xy0
  | ldI (nnn : BitVec 12)                -- Annn
  | rnd (x : RegIdx) (nn : Byte)         -- Cxnn
  | drw (x y : RegIdx) (n : BitVec 4)    -- Dxyn
  | skp (x : RegIdx)                     -- Ex9E
  | sknp (x : RegIdx)                    -- ExA1
  | ldVxDt (x : RegIdx)                  -- Fx07
  | ldVxK (x : RegIdx)                   -- Fx0A
  | ldDtVx (x : RegIdx)                  -- Fx15
  | addI (x : RegIdx)                    -- Fx1E
  | bcd (x : RegIdx)                     -- Fx33
  | stm (x : RegIdx)                     -- Fx55
  | ldm (x : RegIdx)                     -- Fx65
  deriving DecidableEq, Repr

/-- The instruction's name in spec/opcode_table.json, letter for letter. -/
def Instr.mnemonic : Instr → String
  | .cls => "CLS"
  | .ret => "RET"
  | .jp _ => "JP"
  | .call _ => "CALL"
  | .seImm _ _ => "SE_IMM"
  | .sneImm _ _ => "SNE_IMM"
  | .seReg _ _ => "SE_REG"
  | .ldImm _ _ => "LD_IMM"
  | .addImm _ _ => "ADD_IMM"
  | .ldReg _ _ => "LD_REG"
  | .orReg _ _ => "OR"
  | .andReg _ _ => "AND"
  | .xorReg _ _ => "XOR"
  | .addReg _ _ => "ADD_REG"
  | .sub _ _ => "SUB"
  | .shr _ _ => "SHR"
  | .subn _ _ => "SUBN"
  | .shl _ _ => "SHL"
  | .sneReg _ _ => "SNE_REG"
  | .ldI _ => "LD_I"
  | .rnd _ _ => "RND"
  | .drw _ _ _ => "DRW"
  | .skp _ => "SKP"
  | .sknp _ => "SKNP"
  | .ldVxDt _ => "LD_VX_DT"
  | .ldVxK _ => "LD_VX_K"
  | .ldDtVx _ => "LD_DT_VX"
  | .addI _ => "ADD_I"
  | .bcd _ => "BCD"
  | .stm _ => "STM"
  | .ldm _ => "LDM"

end Sys2Proof
end

