-- ==== Sys2Proof/WellFormed.lean ====
section
/-! DEFINITION. What makes an opcode legal, a configuration admissible and a program image loadable.
An instruction needs no check of its own: the operand types of Sys2Proof/Syntax.lean hold exactly the
field values of 30_encoding.md R71, and all of them are legal in every instruction that has the field (R77). -/

namespace Sys2Proof

/-- One row of 30_encoding.md R73: an opcode selects it when `op & mask == pattern`. -/
structure OpcodeRow where
  mnemonic : String
  mask     : Word
  pattern  : Word
  deriving DecidableEq, Repr

/-- The row's selection rule (R73). -/
def OpcodeRow.selects (r : OpcodeRow) (op : Word) : Bool := op &&& r.mask == r.pattern

/-- R73's rows 00E0 to 7xnn. -/
def opcodeRowsControl : List OpcodeRow :=
  [⟨"CLS", 0xFFFF#16, 0x00E0#16⟩, ⟨"RET", 0xFFFF#16, 0x00EE#16⟩, ⟨"JP", 0xF000#16, 0x1000#16⟩,
   ⟨"CALL", 0xF000#16, 0x2000#16⟩, ⟨"SE_IMM", 0xF000#16, 0x3000#16⟩, ⟨"SNE_IMM", 0xF000#16, 0x4000#16⟩,
   ⟨"SE_REG", 0xF00F#16, 0x5000#16⟩, ⟨"LD_IMM", 0xF000#16, 0x6000#16⟩, ⟨"ADD_IMM", 0xF000#16, 0x7000#16⟩]

/-- R73's rows 8xy0 to 9xy0. -/
def opcodeRowsRegister : List OpcodeRow :=
  [⟨"LD_REG", 0xF00F#16, 0x8000#16⟩, ⟨"OR", 0xF00F#16, 0x8001#16⟩, ⟨"AND", 0xF00F#16, 0x8002#16⟩,
   ⟨"XOR", 0xF00F#16, 0x8003#16⟩, ⟨"ADD_REG", 0xF00F#16, 0x8004#16⟩, ⟨"SUB", 0xF00F#16, 0x8005#16⟩,
   ⟨"SHR", 0xF00F#16, 0x8006#16⟩, ⟨"SUBN", 0xF00F#16, 0x8007#16⟩, ⟨"SHL", 0xF00F#16, 0x800E#16⟩,
   ⟨"SNE_REG", 0xF00F#16, 0x9000#16⟩]

/-- R73's rows Annn to Fx65. -/
def opcodeRowsIndexed : List OpcodeRow :=
  [⟨"LD_I", 0xF000#16, 0xA000#16⟩, ⟨"RND", 0xF000#16, 0xC000#16⟩, ⟨"DRW", 0xF000#16, 0xD000#16⟩,
   ⟨"SKP", 0xF0FF#16, 0xE09E#16⟩, ⟨"SKNP", 0xF0FF#16, 0xE0A1#16⟩, ⟨"LD_VX_DT", 0xF0FF#16, 0xF007#16⟩,
   ⟨"LD_VX_K", 0xF0FF#16, 0xF00A#16⟩, ⟨"LD_DT_VX", 0xF0FF#16, 0xF015#16⟩, ⟨"ADD_I", 0xF0FF#16, 0xF01E#16⟩,
   ⟨"BCD", 0xF0FF#16, 0xF033#16⟩, ⟨"STM", 0xF0FF#16, 0xF055#16⟩, ⟨"LDM", 0xF0FF#16, 0xF065#16⟩]

/-- The complete instruction set as the spec's own table of masks and matches (R73), independent of
the decoder, which follows R74. -/
def opcodeTable : List OpcodeRow := opcodeRowsControl ++ opcodeRowsRegister ++ opcodeRowsIndexed

/-- An opcode is legal when it selects a row (R75). -/
def Opcode.legal (op : Word) : Bool := opcodeTable.any (fun r => r.selects op)

/-- A configuration is admissible when the stack holds at least one return address (R4). -/
def Config.wf (c : Config) : Bool := decide (1 ≤ c.stackDepth)

/-- The longest program image: `MEM_SIZE - 0x200` bytes (70_reset_and_hazards.md R252). -/
def Config.imageCapacity (c : Config) : Nat := c.memBytes - progOrigin.toNat

/-- An image can be loaded when it fits between the program origin and the end of memory (R252). -/
def Image.fits (c : Config) (rom : List Byte) : Bool := decide (rom.length ≤ c.imageCapacity)

end Sys2Proof
end

