-- ==== Sys2Proof/Decode.lean ====
section
/-! DEFINITION. From opcodes to instructions (30_encoding.md R70 to R77) and back. -/

namespace Sys2Proof

/-! ### Fields (R71) -/

/-- `top` = op[15:12]. -/
def fieldTop (op : Word) : Nat := (op.extractLsb' 12 4).toNat
/-- `x` = op[11:8], a register number. -/
def fieldX (op : Word) : RegIdx := (op.extractLsb' 8 4).toFin
/-- `y` = op[7:4], a register number. -/
def fieldY (op : Word) : RegIdx := (op.extractLsb' 4 4).toFin
/-- `n` = op[3:0]. -/
def fieldN (op : Word) : BitVec 4 := op.extractLsb' 0 4
/-- `nn` = op[7:0]. -/
def fieldNN (op : Word) : Byte := op.extractLsb' 0 8
/-- `nnn` = op[11:0]. -/
def fieldNNN (op : Word) : BitVec 12 := op.extractLsb' 0 12

/-! ### Decoding (R74) -/

/-- Why bits are no instruction: one name for each row of R76's illegal space, and one for bytes that
are too few to hold an opcode. Raised by the decoder only. The machine turns the first seven into the
fatal error DecodeError (R220). -/
inductive Reject
  | zeroGroup      -- 0x0000 to 0x0FFF but 0x00E0 and 0x00EE
  | seRegNibble    -- 5xy1 to 5xyF
  | aluNibble      -- 8xy8 to 8xyD and 8xyF
  | sneRegNibble   -- 9xy1 to 9xyF
  | groupB         -- Bnnn
  | groupE         -- Exkk with kk not 9E or A1
  | groupF         -- Fxkk with kk not one of the seven
  | truncated      -- fewer than two bytes
  deriving DecidableEq, Repr

/-- What the decoder answers. -/
inductive Decoded
  | ok (i : Instr)
  | illegal (r : Reject)
  deriving DecidableEq, Repr

/-- The instruction, if there is one. -/
def Decoded.toOption : Decoded → Option Instr
  | .ok i => some i
  | .illegal _ => none

/-- The 0x0 group: two opcodes, matched whole (R74). -/
def decodeZero (op : Word) : Decoded :=
  if op = 0x00E0#16 then .ok .cls
  else if op = 0x00EE#16 then .ok .ret
  else .illegal .zeroGroup

/-- The 0x8 group: n selects (R74). -/
def decodeAlu (op : Word) : Decoded :=
  match (fieldN op).toNat with
  | 0x0 => .ok (.ldReg (fieldX op) (fieldY op))
  | 0x1 => .ok (.orReg (fieldX op) (fieldY op))
  | 0x2 => .ok (.andReg (fieldX op) (fieldY op))
  | 0x3 => .ok (.xorReg (fieldX op) (fieldY op))
  | 0x4 => .ok (.addReg (fieldX op) (fieldY op))
  | 0x5 => .ok (.sub (fieldX op) (fieldY op))
  | 0x6 => .ok (.shr (fieldX op) (fieldY op))
  | 0x7 => .ok (.subn (fieldX op) (fieldY op))
  | 0xE => .ok (.shl (fieldX op) (fieldY op))
  | _ => .illegal .aluNibble

/-- The 0xE group: nn selects (R74). -/
def decodeKeys (op : Word) : Decoded :=
  if fieldNN op = 0x9E#8 then .ok (.skp (fieldX op))
  else if fieldNN op = 0xA1#8 then .ok (.sknp (fieldX op))
  else .illegal .groupE

/-- The 0xF group: nn selects (R74). -/
def decodeMisc (op : Word) : Decoded :=
  if fieldNN op = 0x07#8 then .ok (.ldVxDt (fieldX op))
  else if fieldNN op = 0x0A#8 then .ok (.ldVxK (fieldX op))
  else if fieldNN op = 0x15#8 then .ok (.ldDtVx (fieldX op))
  else if fieldNN op = 0x1E#8 then .ok (.addI (fieldX op))
  else if fieldNN op = 0x33#8 then .ok (.bcd (fieldX op))
  else if fieldNN op = 0x55#8 then .ok (.stm (fieldX op))
  else if fieldNN op = 0x65#8 then .ok (.ldm (fieldX op))
  else .illegal .groupF

/-- R74's algorithm. Every hexadecimal digit of a pattern must match, also the low nibble of 5xy0 and
9xy0 (the spec's decision D12; log 14). -/
def decode (op : Word) : Decoded :=
  match fieldTop op with
  | 0x0 => decodeZero op
  | 0x1 => .ok (.jp (fieldNNN op))
  | 0x2 => .ok (.call (fieldNNN op))
  | 0x3 => .ok (.seImm (fieldX op) (fieldNN op))
  | 0x4 => .ok (.sneImm (fieldX op) (fieldNN op))
  | 0x5 => if fieldN op = 0#4 then .ok (.seReg (fieldX op) (fieldY op)) else .illegal .seRegNibble
  | 0x6 => .ok (.ldImm (fieldX op) (fieldNN op))
  | 0x7 => .ok (.addImm (fieldX op) (fieldNN op))
  | 0x8 => decodeAlu op
  | 0x9 => if fieldN op = 0#4 then .ok (.sneReg (fieldX op) (fieldY op)) else .illegal .sneRegNibble
  | 0xA => .ok (.ldI (fieldNNN op))
  | 0xB => .illegal .groupB
  | 0xC => .ok (.rnd (fieldX op) (fieldNN op))
  | 0xD => .ok (.drw (fieldX op) (fieldY op) (fieldN op))
  | 0xE => decodeKeys op
  | _ => decodeMisc op   -- 0xF, the one value left of four bits

/-- The opcode of two bytes, the first the more significant (20_memory.md R51). -/
def wordOfBytes (hi lo : Byte) : Word := hi ++ lo

/-- Decoding at the front of a byte stream: every instruction is two bytes, big-endian (R70, R51). The
bytes after the instruction come back beside it. -/
def decodeBytes : List Byte → Decoded × List Byte
  | hi :: lo :: rest => (decode (wordOfBytes hi lo), rest)
  | bs => (.illegal .truncated, bs)

/-! ### Encoding (R72, R73) -/

/-- Layout `NNN`: top, nnn. -/
def layoutNNN (top : BitVec 4) (nnn : BitVec 12) : Word := top ++ nnn
/-- Layout `XNN`: top, x, nn. -/
def layoutXNN (top : BitVec 4) (x : RegIdx) (nn : Byte) : Word := top ++ BitVec.ofFin (w := 4) x ++ nn
/-- Layouts `XY` and `XYN`: top, x, y, and a low nibble that is a sub-opcode or n. -/
def layoutXYN (top : BitVec 4) (x y : RegIdx) (n : BitVec 4) : Word :=
  top ++ BitVec.ofFin (w := 4) x ++ BitVec.ofFin (w := 4) y ++ n

/-- The opcode of an instruction, read off R73's patterns. Layout `X` is `XNN` with a fixed low byte. -/
def encode : Instr → Word
  | .cls => 0x00E0#16
  | .ret => 0x00EE#16
  | .jp nnn => layoutNNN 0x1#4 nnn
  | .call nnn => layoutNNN 0x2#4 nnn
  | .seImm x nn => layoutXNN 0x3#4 x nn
  | .sneImm x nn => layoutXNN 0x4#4 x nn
  | .seReg x y => layoutXYN 0x5#4 x y 0x0#4
  | .ldImm x nn => layoutXNN 0x6#4 x nn
  | .addImm x nn => layoutXNN 0x7#4 x nn
  | .ldReg x y => layoutXYN 0x8#4 x y 0x0#4
  | .orReg x y => layoutXYN 0x8#4 x y 0x1#4
  | .andReg x y => layoutXYN 0x8#4 x y 0x2#4
  | .xorReg x y => layoutXYN 0x8#4 x y 0x3#4
  | .addReg x y => layoutXYN 0x8#4 x y 0x4#4
  | .sub x y => layoutXYN 0x8#4 x y 0x5#4
  | .shr x y => layoutXYN 0x8#4 x y 0x6#4
  | .subn x y => layoutXYN 0x8#4 x y 0x7#4
  | .shl x y => layoutXYN 0x8#4 x y 0xE#4
  | .sneReg x y => layoutXYN 0x9#4 x y 0x0#4
  | .ldI nnn => layoutNNN 0xA#4 nnn
  | .rnd x nn => layoutXNN 0xC#4 x nn
  | .drw x y n => layoutXYN 0xD#4 x y n
  | .skp x => layoutXNN 0xE#4 x 0x9E#8
  | .sknp x => layoutXNN 0xE#4 x 0xA1#8
  | .ldVxDt x => layoutXNN 0xF#4 x 0x07#8
  | .ldVxK x => layoutXNN 0xF#4 x 0x0A#8
  | .ldDtVx x => layoutXNN 0xF#4 x 0x15#8
  | .addI x => layoutXNN 0xF#4 x 0x1E#8
  | .bcd x => layoutXNN 0xF#4 x 0x33#8
  | .stm x => layoutXNN 0xF#4 x 0x55#8
  | .ldm x => layoutXNN 0xF#4 x 0x65#8

/-- A word as memory holds it, the more significant byte at the lower address (R51). -/
def bytesOfWord (op : Word) : List Byte := [op.extractLsb' 8 8, op.extractLsb' 0 8]

/-- An instruction as memory holds it. -/
def encodeBytes (i : Instr) : List Byte := bytesOfWord (encode i)

/-! ### The opcode table's numbering -/

/-- The opcode whose bits are `w`, numbered as spec/opcode_table.json numbers them; bits at `nbits` and
above are 0. -/
def tableWord (nbits w : Nat) : Word := BitVec.ofNat 16 (w % 2 ^ nbits)

/-- The instruction the decoder reads from an instruction whose bits are `w`, laid out in memory order. -/
def decodeTableWord (nbits w : Nat) : Option Instr :=
  (decodeBytes (bytesOfWord (tableWord nbits w))).1.toOption

end Sys2Proof
end

