-- ==== Sys2Proof/Machine/ControlFlow.lean ====
section
/-! DEFINITION. 00EE, 1nnn, 2nnn, 3xnn, 4xnn, 5xy0, 9xy0 (40_control_flow.md). -/

namespace Sys2Proof.Machine

/-- RET (R101): the popped value becomes the pc as it is, or StackUnderflow(0x00EE, pc). -/
def execRet (s : State) : Result :=
  match s.pop with
  | none => raise (.stackUnderflow (encode .ret) s.pc) s
  | some (w, t) => .next { t with pc := w }

/-- JP (R102). -/
def execJp (nnn : BitVec 12) (s : State) : Result := .next (s.jump nnn)

/-- CALL (R103): push the address of the next instruction (the spec's decision D4) and jump, or
StackOverflow(op, pc) on a full stack (D2). `op` is the call's own word (log 19). -/
def execCall (nnn : BitVec 12) (s : State) : Result :=
  if s.cfg.stackDepth ≤ s.stack.length then raise (.stackOverflow (encode (.call nnn)) s.pc) s
  else .next ((s.push (s.pc + 2#16)).jump nnn)

/-- SE_IMM (R104). -/
def execSeImm (x : RegIdx) (nn : Byte) (s : State) : Result := .next (s.skipIf (s.V x == nn))

/-- SNE_IMM (R105). -/
def execSneImm (x : RegIdx) (nn : Byte) (s : State) : Result := .next (s.skipIf (s.V x != nn))

/-- SE_REG (R106). -/
def execSeReg (x y : RegIdx) (s : State) : Result := .next (s.skipIf (s.V x == s.V y))

/-- SNE_REG (R107). -/
def execSneReg (x y : RegIdx) (s : State) : Result := .next (s.skipIf (s.V x != s.V y))

end Sys2Proof.Machine
end

