-- ==== Sys2Proof/Machine/Screen.lean ====
section
/-! DEFINITION. The framebuffer and the drawing of a sprite (10_state.md R28, 43_display.md R171 to R176). -/

namespace Sys2Proof.Machine

/-- `fb[r][c]`: is the pixel in row r and column c on? -/
def Framebuffer.pixel (fb : Framebuffer) (r : Fin 32) (c : Fin 64) : Bool := fb[r].getLsbD (63 - c.val)

/-- `fb[r][c] <- fb[r][c] ^ 1`. -/
def Framebuffer.flip (fb : Framebuffer) (r : Fin 32) (c : Fin 64) : Framebuffer :=
  fb.set r (fb[r] ^^^ (1#64 <<< (63 - c.val)))

/-- Every pixel off. -/
def Framebuffer.blank : Framebuffer := Vector.replicate 32 0#64

/-- `place(cx, cy)` (R173): the (row, column) of a sprite pixel, or none if it is dropped. The
coordinates are natural numbers, without 8-bit wraparound (the spec's decision D3; log 8). -/
def place (p : EdgePolicy) (cx cy : Nat) : Option (Fin 32 × Fin 64) :=
  match p with
  | .clip => if h : cy < 32 ∧ cx < 64 then some (⟨cy, h.1⟩, ⟨cx, h.2⟩) else none
  | .wrap => some (Fin.ofNat 32 cy, Fin.ofNat 64 cx)

/-- The screen while a sprite is drawn: the pixels, and whether one has gone from on to off. -/
structure Canvas where
  fb  : Framebuffer
  hit : Bool
  deriving DecidableEq, Repr

/-- One sprite bit of 1 at column cx, row cy (the inner statements of R171). -/
def plot (p : EdgePolicy) (cx cy : Nat) (c : Canvas) : Canvas :=
  match place p cx cy with
  | none => c
  | some (r, k) => { fb := c.fb.flip r k, hit := c.hit || c.fb.pixel r k }

/-- `(b >> (7 - col)) & 1`: column 0 is bit 7, the leftmost pixel (R171). -/
def spriteBit (b : Byte) (col : Nat) : Bool := b.getLsbD (7 - col)

/-- One sprite row: columns 0 to 7 in ascending order; a bit of 0 leaves its pixel (R171). -/
def drawRow (p : EdgePolicy) (x0 cy : Nat) (b : Byte) (c : Canvas) : Canvas :=
  (List.range 8).foldl (fun c col => if spriteBit b col then plot p (x0 + col) cy c else c) c

/-- The rows of a sprite, the first at row cy, in ascending order (R171). -/
def drawRows (p : EdgePolicy) (x0 : Nat) : Nat → List Byte → Canvas → Canvas
  | _, [], c => c
  | cy, b :: bs, c => drawRows p x0 (cy + 1) bs (drawRow p x0 cy b c)

end Sys2Proof.Machine
end

