-- ==== Sys2Proof/Machine/Display.lean ====
section
/-! DEFINITION. 00E0 and Dxyn (43_display.md). -/

namespace Sys2Proof.Machine

/-- `notify_display()`: one display-notify event. Its content is the framebuffer at the end of the step,
which `stepOutput` (Machine/Output.lean) hands out (R172; log 4). -/
def State.notifyDisplay (s : State) : State := { s with notices := s.notices + 1 }

/-- CLS (R170): VF is not written. -/
def execCls (s : State) : Result := .next { s with fb := Framebuffer.blank }.notifyDisplay.advance

/-- The effect of Dxyn once its sprite bytes are read: VF <- 0, the sprite is XORed in at the coordinates
V[x], V[y] that `s` holds before VF is reset (R175, the spec's decision D6), VF <- 1 on a collision (R174). -/
def drawSprite (x y : RegIdx) (s : State) (sprite : List Byte) : State :=
  let c := drawRows s.cfg.edgePolicy (s.V x).toNat (s.V y).toNat sprite { fb := s.fb, hit := false }
  { s.setV VF (flagByte c.hit) with fb := c.fb }

/-- DRW (R171): all n bytes are read and checked before anything is written, clipped rows too (R176, the
spec's decision D17). -/
def execDrw (x y : RegIdx) (n : BitVec 4) (s : State) : Result :=
  orRaise s (s.loadAtI n.toNat) (fun sprite => (drawSprite x y s sprite).notifyDisplay.advance)

end Sys2Proof.Machine
end

