-- ==== Sys2Proof/Machine/IndexMemory.lean ====
section
/-! DEFINITION. Annn, Fx1E, Fx33, Fx55, Fx65 (42_index_memory.md). No memory access changes I (R155, the
spec's decision D18; log 15). -/

namespace Sys2Proof.Machine

/-- LD_I (R150). -/
def execLdI (nnn : BitVec 12) (s : State) : Result := .next { s with i := nnn.zeroExtend 16 }.advance

/-- ADD_I (R151): modulo 65536 (the spec's decision D8), no flag. -/
def execAddI (x : RegIdx) (s : State) : Result :=
  .next { s with i := s.i + (s.V x).zeroExtend 16 }.advance

/-- BCD (R152). -/
def execBcd (x : RegIdx) (s : State) : Result :=
  orRaise s (s.storeAtI (decimalDigits (s.V x))) State.advance

/-- STM (R153): V0 to V[x] to memory from I on. -/
def execStm (x : RegIdx) (s : State) : Result :=
  orRaise s (s.storeAtI (s.regsUpTo x)) State.advance

/-- LDM (R154): memory from I on to V0 to V[x]. -/
def execLdm (x : RegIdx) (s : State) : Result :=
  orRaise s (s.loadAtI (x.val + 1)) (fun bs => { s with v := loadRegs s.v 0 bs }.advance)

end Sys2Proof.Machine
end

