-- ==== Sys2Proof/Machine/InputTimer.lean ====
section
/-! DEFINITION. Ex9E, ExA1, Fx07, Fx15, Fx0A (44_input_timer.md). -/

namespace Sys2Proof.Machine

/-- SKP (R190). -/
def execSkp (x : RegIdx) (s : State) : Result := .next (s.skipIf (s.keys.has (keyOf (s.V x))))

/-- SKNP (R191). -/
def execSknp (x : RegIdx) (s : State) : Result := .next (s.skipIf (!s.keys.has (keyOf (s.V x))))

/-- LD_VX_DT (R192). -/
def execLdVxDt (x : RegIdx) (s : State) : Result := .next (s.setV x s.dt).advance

/-- LD_DT_VX (R193). -/
def execLdDtVx (x : RegIdx) (s : State) : Result := .next { s with dt := s.V x }.advance

/-- The key-wait unit at the start of a wait: Waiting, with empty bookkeeping (R196). -/
def KeyWait.entered : KeyWait := { waiting := true, pending := KeySet.empty, completed := none }

/-- LD_VX_K (R194). Idle: enter Waiting, pc kept (R196). Waiting with a completed key and a pending set
that is not empty: V[x] receives the key, Idle again, pc advances (R198). Else nothing is written and the
pc keeps the address of this instruction, which the next step executes again (R197). -/
def execLdVxK (x : RegIdx) (s : State) : Result :=
  if s.kw.waiting then
    match s.kw.completed with
    | some k =>
      if s.kw.pending ≠ KeySet.empty then
        .next { s.setV x (keyByte k) with kw := KeyWait.idle }.advance
      else .next s
    | none => .next s
  else .next { s with kw := KeyWait.entered }

end Sys2Proof.Machine
end

