-- ==== Sys2Proof/Machine/Fetch.lean ====
section
/-! DEFINITION. Instruction fetch (20_memory.md R51, R55, R60). -/

namespace Sys2Proof.Machine

/-- The opcode of the two bytes a fetch reads. -/
def opcodeOf : List Byte → Word
  | [hi, lo] => wordOfBytes hi lo
  | _ => 0#16

/-- op <- MemRead(pc, 2): the bytes at pc and pc + 1, big-endian, from memory as it stands now (R51, R60).
Any pc, odd or even (R54, the spec's decision D7). Out of memory: BoundsError(pc), or else
BoundsError(pc + 1) (R55). -/
def fetch (s : State) : Except Fault Word := (readBytes s s.pc.toNat 2).map opcodeOf

end Sys2Proof.Machine
end

