-- ==== Sys2Proof/Machine/Step.lean ====
section
/-! DEFINITION. One step (40_control_flow.md R100), and a fetch word laid where it fetches. -/

namespace Sys2Proof.Machine

/-- `step()`: with an error latched, nothing changes and the error is reported again (R225). Else fetch,
decode, execute, and the first error found is the one taken (R226). Each meaning writes the pc itself. -/
def step (s : State) : Host.Outcome State Fault Refusal :=
  match s.fault with
  | some _ => .next s
  | none =>
    match fetch s with
    | .error e => raise e s
    | .ok op =>
      match decode op with
      | .illegal _ => raise (.decodeError op s.pc) s
      | .ok i => exec i s

/-- `s` with the instruction whose bits are `w` (numbered as the opcode table numbers them, bits at `nbits`
and above 0) at the pc, and no error latched, so that the next step fetches and runs it. Where there is
no memory at pc or pc + 1 nothing can be laid and the bytes stay as they are (log 13). -/
def State.withFetchWord (s : State) (nbits w : Nat) : State :=
  match storeBytes s s.pc.toNat (bytesOfWord (tableWord nbits w)) with
  | .ok t => { t with fault := none }
  | .error _ => { s with fault := none }

end Sys2Proof.Machine
end

