-- ==== Sys2Proof/Machine/Output.lean ====
section
/-! DEFINITION. What a step hands to the host beside the new state (40_control_flow.md R100, 43_display.md
R172, 60_exceptions.md R224, R225). -/

namespace Sys2Proof.Machine

/-- The outputs of one step (R100): optionally one display-notify event, optionally one fatal error. -/
structure StepOutput where
  /-- The event carries the whole framebuffer as it stands when the instruction has finished (R172). -/
  notify : Option Framebuffer
  /-- The error of a step that raises, or of an earlier one, reported again (R224, R225). -/
  report : Option Fault
  deriving DecidableEq, Repr

/-- The outputs of the step from `s`: the event if the step emitted one, and the error latched after it. -/
def stepOutput (s : State) : StepOutput :=
  match step s with
  | .next t => { notify := if t.notices = s.notices then none else some t.fb, report := t.fault }
  | .fault _ => { notify := none, report := none }
  | .refused _ => { notify := none, report := none }

end Sys2Proof.Machine
end

