-- ==== Sys2Proof/Machine/Input.lean ====
section
/-! DEFINITION. The host's transactions between two steps (44_input_timer.md R200 to R203). -/

namespace Sys2Proof.Machine

/-- `key_down(k)` (R200): the latch, and in Waiting the pending set. -/
def keyDown (k : KeyIdx) (s : State) : State :=
  { s with
    keys := s.keys.insert k
    kw := if s.kw.waiting then { s.kw with pending := s.kw.pending.insert k } else s.kw }

/-- `key_up(k)` (R201): the latch, and in Waiting, for a pending key, the completed key; the latest
qualifying release wins and the key stays pending (the spec's decision D13; log 11). -/
def keyUp (k : KeyIdx) (s : State) : State :=
  { s with
    keys := s.keys.erase k
    kw := if s.kw.waiting && s.kw.pending.has k then { s.kw with completed := some k } else s.kw }

/-- `tick_delay_timer()` (R202): down by 1, floored at 0. -/
def tickDelayTimer (s : State) : State := { s with dt := if s.dt = 0#8 then s.dt else s.dt - 1#8 }

/-- The query `is_key_down(k)` (R203). -/
def isKeyDown (k : KeyIdx) (s : State) : Bool := s.keys.has k

end Sys2Proof.Machine
end

