-- ==== Sys2Proof/Machine/Load.lean ====
section
/-! DEFINITION. Reset and program load, one transaction (70_reset_and_hazards.md R250, R252). -/

namespace Sys2Proof.Machine

/-- memory[0x200 + i] = rom[i] (R252). -/
def loadImage (rom : List Byte) (s : State) : State := { s with mem := s.mem.setAll progOrigin.toNat rom }

/-- `reset_and_load(rom)`: the one reset. Every piece of the machine's state takes its reset value, the
fault latch too, and the image is copied to 0x200 (R250, R252). The configuration stands, and so do the
model's two counters: the environment's draws go on, and a reset emits no display-notify event (log 21).
An image that does not fit is refused and the machine is not started (R252, U10). -/
def resetAndLoad (rom : List Byte) (s : State) : Result :=
  if Image.fits s.cfg rom then
    .next (loadImage rom { State.powerOn s.cfg with draws := s.draws, notices := s.notices })
  else .refused (.imageTooLong rom.length s.cfg.imageCapacity)

end Sys2Proof.Machine
end

