-- ==== Sys2Proof/Machine/Transaction.lean ====
section
/-! DEFINITION. Every transaction between host and machine that can change the machine's state
(60_exceptions.md R231). The host chooses which comes next (R14, the spec's decision D14; log 12). -/

namespace Sys2Proof.Machine

/-- The events the host may deliver between two steps (R200 to R202). -/
inductive HostEvent
  | keyDown (k : KeyIdx)
  | keyUp (k : KeyIdx)
  | tick
  deriving DecidableEq, Repr

/-- What an event does. -/
def HostEvent.deliver : HostEvent → State → State
  | .keyDown k, s => Sys2Proof.Machine.keyDown k s
  | .keyUp k, s => Sys2Proof.Machine.keyUp k s
  | .tick, s => tickDelayTimer s

/-- The state-changing transactions of R231. -/
inductive Transaction
  | step
  | event (e : HostEvent)
  | resetAndLoad (rom : List Byte)
  deriving DecidableEq, Repr

/-- One transaction, atomic (R14). -/
def Transaction.apply : Transaction → State → Result
  | .step, s => Sys2Proof.Machine.step s
  | .event e, s => .next (e.deliver s)
  | .resetAndLoad rom, s => Sys2Proof.Machine.resetAndLoad rom s

/-- Transactions in the order given, as long as each answers a next state. -/
def runTransactions : List Transaction → State → Result
  | [], s => .next s
  | t :: ts, s =>
    match t.apply s with
    | .next s' => runTransactions ts s'
    | .fault e => .fault e
    | .refused r => .refused r

/-- `k` steps with no host event between them. -/
def runSteps : Nat → State → Result
  | 0, s => .next s
  | k + 1, s =>
    match Sys2Proof.Machine.step s with
    | .next s' => runSteps k s'
    | .fault e => .fault e
    | .refused r => .refused r

end Sys2Proof.Machine
end

