-- ==== Sys2Proof/Safety.lean ====
section
/-! DEFINITION. The terms that claims use: the invariant of reachable states, the end-of-run convention,
frames, and which registers and pixels an instruction may touch. -/

namespace Sys2Proof.Machine

/-- The instruction at the pc, if its two bytes can be fetched and decoded. -/
def nextInstr (s : State) : Option Instr :=
  match fetch s with
  | .ok op => (decode op).toOption
  | .error _ => none

/-- What holds in every reachable state (10_state.md R36, R33), and the canonical form of memory. -/
structure Inv (s : State) : Prop where
  /-- The parameters are admitted ones (R4). -/
  cfgWf        : s.cfg.wf = true
  /-- Memory is in its canonical form. -/
  memWf        : Memory.wf s.mem
  /-- Memory lists only addresses that exist (R27). -/
  memInside    : ∀ p ∈ s.mem, p.1 < s.cfg.memBytes
  /-- len(stack) <= STACK_DEPTH (R36). -/
  stackBound   : s.stack.length ≤ s.cfg.stackDepth
  /-- Every stack entry is at most MEM_SIZE (R36). -/
  stackEntries : ∀ w ∈ s.stack, w.toNat ≤ s.cfg.memBytes
  /-- pc <= MEM_SIZE + 2 (R25, R36). -/
  pcBound      : s.pc.toNat ≤ s.cfg.memBytes + 2
  /-- In Idle the bookkeeping of the key wait is empty (R33, R36). -/
  idleEmpty    : s.kw.waiting = false → s.kw.pending = KeySet.empty ∧ s.kw.completed = none
  /-- A completed key is a member of the pending set (R36). -/
  completedIn  : ∀ k, s.kw.completed = some k → s.kw.pending.has k = true
  /-- In Waiting the instruction at the pc is an Fx0A (R33). -/
  waitingAtKey : s.kw.waiting = true → ∃ x, nextInstr s = some (.ldVxK x)

/-- R257's convention for "the program has ended successfully": the pc holds the address of a 1nnn that
jumps to itself, and no error is latched. The hardware does not detect it (the spec's decision D16; log 22). -/
def Ended (s : State) : Prop :=
  s.fault = none ∧ ∃ nnn : BitVec 12, nextInstr s = some (.jp nnn) ∧ nnn.zeroExtend 16 = s.pc

/-- The frame of an instruction that writes registers only: a register outside `W` keeps its value, every
byte of memory reads as before, and nothing else but the pc differs. -/
structure OnlyRegsAndPc (s t : State) (W : RegIdx → Prop) : Prop where
  regs  : ∀ r, ¬ W r → t.V r = s.V r
  bytes : ∀ a, t.mem.get a = s.mem.get a
  rest  : t = { s with v := t.v, pc := t.pc }

/-- The frame of an instruction that stores `n` bytes at address `a`: every byte outside them reads as
before, and nothing else but the pc differs. -/
structure OnlyBytesAndPc (s t : State) (a n : Nat) : Prop where
  bytes : ∀ b, (b < a ∨ a + n ≤ b) → t.mem.get b = s.mem.get b
  rest  : t = { s with mem := t.mem, pc := t.pc }

/-- The registers an instruction can write (10_state.md R20, R21). -/
def writesReg : Instr → RegIdx → Prop
  | .cls, _ | .ret, _ | .jp _, _ | .call _, _ | .seImm _ _, _ | .sneImm _ _, _ | .seReg _ _, _
  | .sneReg _ _, _ | .ldI _, _ | .skp _, _ | .sknp _, _ | .ldDtVx _, _ | .addI _, _ | .bcd _, _
  | .stm _, _ => False
  | .ldImm x _, r | .addImm x _, r | .ldReg x _, r | .orReg x _, r | .andReg x _, r | .xorReg x _, r
  | .rnd x _, r | .ldVxDt x, r | .ldVxK x, r => r = x
  | .addReg x _, r | .sub x _, r | .shr x _, r | .subn x _, r | .shl x _, r => r = x ∨ r = VF
  | .drw _ _ _, r => r = VF
  | .ldm x, r => r ≤ x

/-- The sprite that Dxyn draws from state `s` has a bit of 1 on the pixel in row r and column c, by R171's
coordinates and R173's edge policy, written without the model's drawing functions. -/
def Covers (s : State) (x y : RegIdx) (n : BitVec 4) (r : Fin 32) (c : Fin 64) : Prop :=
  ∃ row col : Nat, row < n.toNat ∧ col < 8 ∧
    (s.mem.get (s.i.toNat + row)).getLsbD (7 - col) = true ∧
    match s.cfg.edgePolicy with
    | .clip => (s.V x).toNat + col = c.val ∧ (s.V y).toNat + row = r.val
    | .wrap => ((s.V x).toNat + col) % 64 = c.val ∧ ((s.V y).toNat + row) % 32 = r.val

/-- The events in the order given (R14). -/
def deliverAll (es : List HostEvent) (s : State) : State := es.foldl (fun u e => e.deliver u) s

/-- The list of transactions holds no reset. -/
def NoReset (ts : List Transaction) : Prop := ∀ t ∈ ts, ∀ rom, t ≠ .resetAndLoad rom

/-- No key-up in `es` is one that counts in a wait whose pending set is `ks`: its key is neither pending at
the start nor pressed earlier in `es` (R199). -/
def NoQualifyingRelease (ks : KeySet) (es : List HostEvent) : Prop :=
  ∀ (k : KeyIdx) (before after : List HostEvent), es = before ++ .keyUp k :: after →
    ks.has k = false ∧ .keyDown k ∉ before

end Sys2Proof.Machine
end

