-- ==== Sys2Proof/Certificates/Slice0/Obligations.lean ====
section
/-! DEFINITION. The statements for the provers. Each says in its docstring which rule of spec/ it formalises;
"model's choice" marks a clause that rests on a decision of the spec's own (D1 to D22 of
spec/92_eei_decisions.md) or on a log entry. -/

open Sys2Proof Sys2Proof.Machine Host.Outcome

/-! ### Encoding -/

/-- Decoding an encoded instruction gives it back, as a word and at the front of any byte stream
(30_encoding.md, R71 to R74). -/
def Obligations.DecodeOfEncode : Prop :=
  ∀ (i : Instr) (rest : List Byte),
    decode (encode i) = .ok i ∧ decodeBytes (encodeBytes i ++ rest) = (.ok i, rest)

/-- Encoding a decoded opcode gives it back: the decoder drops no bit (30_encoding.md, R71 to R74; that it drops
none of 5xy0 and 9xy0 is strict decode, the spec's decision D12, log 14). -/
def Obligations.EncodeOfDecode : Prop :=
  ∀ (op : Word) (i : Instr), decode op = .ok i → encode i = op

/-- The decoder of R74 and the table of masks and matches of R73 agree: an opcode decodes exactly when it
selects a row, and to the instruction that the row names (R75; strictness is the spec's decision D12, log 14). -/
def Obligations.DecodeAgreesWithOpcodeTable : Prop :=
  ∀ op : Word,
    (∀ i, decode op = .ok i → ∃ r ∈ opcodeTable, r.selects op = true ∧ r.mnemonic = i.mnemonic) ∧
    (Opcode.legal op = true → ∃ i, decode op = .ok i)

/-- "The rows are mutually exclusive" (R73): no opcode selects two rows. -/
def Obligations.OpcodeRowsExclusive : Prop :=
  ∀ r₁ ∈ opcodeTable, ∀ r₂ ∈ opcodeTable, ∀ op : Word,
    r₁.selects op = true → r₂.selects op = true → r₁ = r₂

/-- Words written out from R73's patterns decode to the instructions they stand for. -/
def Obligations.WrittenWordsDecode : Prop :=
  decode 0x00EE#16 = .ok .ret ∧ decode 0x2ABC#16 = .ok (.call 0xABC#12) ∧
  decode 0x332A#16 = .ok (.seImm 3 0x2A#8) ∧ decode 0x8124#16 = .ok (.addReg 1 2) ∧
  decode 0x8AF7#16 = .ok (.subn 10 15) ∧ decode 0xA2F0#16 = .ok (.ldI 0x2F0#12) ∧
  decode 0xD01F#16 = .ok (.drw 0 1 15#4) ∧ decode 0xE2A1#16 = .ok (.sknp 2) ∧
  decode 0xF50A#16 = .ok (.ldVxK 5) ∧ decode 0xFF65#16 = .ok (.ldm 15)

/-! ### The step -/

/-- R51: the byte at pc gives opcode bits 15 to 8 and the byte at pc + 1 gives bits 7 to 0. -/
def Obligations.FetchIsBigEndian : Prop :=
  ∀ s : State, s.pc.toNat + 1 < s.cfg.memBytes →
    ∃ op : Word, fetch s = .ok op ∧
      (∀ j < 8, op.getLsbD (8 + j) = (s.mem.get s.pc.toNat).getLsbD j) ∧
      (∀ j < 8, op.getLsbD j = (s.mem.get (s.pc.toNat + 1)).getLsbD j)

/-- A step runs the decoded instruction (R100): nothing is added around `exec`; each meaning moves the pc. -/
def Obligations.StepRunsDecodedInstruction : Prop :=
  ∀ (s : State) (i : Instr), s.fault = none → s.pc.toNat + 1 < s.cfg.memBytes →
    decode (wordOfBytes (s.mem.get s.pc.toNat) (s.mem.get (s.pc.toNat + 1))) = .ok i →
    step s = exec i s

/-- An opcode that selects no row raises DecodeError(op, pc) and changes nothing (R75, R220). That the
error is a next state with the latch set is the spec's decision D10 (log 1), that decode is strict D12 (log 14). -/
def Obligations.IllegalOpcodeRaisesDecodeError : Prop :=
  ∀ s : State, s.fault = none → s.pc.toNat + 1 < s.cfg.memBytes →
    let op := wordOfBytes (s.mem.get s.pc.toNat) (s.mem.get (s.pc.toNat + 1))
    Opcode.legal op = false →
    step s = next { s with fault := some (.decodeError op s.pc) }

/-- A fetch outside memory raises BoundsError(pc), or else BoundsError(pc + 1), and changes nothing
(R55, R226; the latch is the spec's decision D10, the order D19, logs 1 and 17). -/
def Obligations.FetchOutsideMemoryRaises : Prop :=
  ∀ s : State, s.fault = none →
    (s.cfg.memBytes ≤ s.pc.toNat → step s = next { s with fault := some (.boundsError s.pc.toNat) }) ∧
    (s.pc.toNat < s.cfg.memBytes → s.cfg.memBytes ≤ s.pc.toNat + 1 →
      step s = next { s with fault := some (.boundsError (s.pc.toNat + 1)) })

/-- After an error every step changes nothing and reports the same error; host events still move the key
latch, the key-wait bookkeeping and DT, and nothing else; only a reset leaves this (R225, D10, log 1). -/
def Obligations.FaultedMachineIsFrozen : Prop :=
  ∀ (s : State) (e : Fault), s.fault = some e →
    step s = next s ∧ stepOutput s = { notify := none, report := some e } ∧
    ∀ ts : List Transaction, NoReset ts →
      ∃ t, runTransactions ts s = next t ∧ t = { s with keys := t.keys, kw := t.kw, dt := t.dt }

/-- A step that raises commits nothing but the latch, emits no display-notify event and reports the error
(R224, R62; the spec's decision D10, log 1). -/
def Obligations.RaisingStepCommitsNothing : Prop :=
  ∀ (s t : State) (e : Fault), s.fault = none → step s = next t → t.fault = some e →
    t = { s with fault := some e } ∧ stepOutput s = { notify := none, report := some e }

/-- The model never stops: transactions in any number and order answer a next state from every state, as
long as each image that a reset loads fits (R252; logs 1, 18, 21). -/
def Obligations.TransactionsAnswerNext : Prop :=
  ∀ (s : State) (ts : List Transaction),
    (∀ rom, Transaction.resetAndLoad rom ∈ ts → rom.length ≤ s.cfg.memBytes - 0x200) →
    ∃ t, runTransactions ts s = next t

/-- Which error each instruction can raise, and when (R226, R221 to R223; the spec's decisions D2, D8, D10, D19,
logs 1, 9, 10, 17): 00EE only StackUnderflow, 2nnn only StackOverflow, Dxyn, Fx33, Fx55 and Fx65 only
BoundsError, of an address not below I, others none. -/
def Obligations.ErrorsOfEachInstruction : Prop :=
  ∀ (i : Instr) (s t : State) (e : Fault), s.fault = none → exec i s = next t → t.fault = some e →
    (i = .ret ∧ s.stack = [] ∧ e = .stackUnderflow 0x00EE#16 s.pc) ∨
    (∃ nnn, i = .call nnn ∧ s.cfg.stackDepth ≤ s.stack.length ∧ e = .stackOverflow (encode i) s.pc) ∨
    (((∃ x y n, i = .drw x y n) ∨ (∃ x, i = .bcd x) ∨ (∃ x, i = .stm x) ∨ (∃ x, i = .ldm x)) ∧
      ∃ a, s.cfg.memBytes ≤ a ∧ s.i.toNat ≤ a ∧ e = .boundsError a)

/-- R225: an error's cause is nothing that a host event can change. With the latch cleared by hand, the
same instruction would raise the same error again after any events (derived in the spec; the latch is its
decision D10, log 1). -/
def Obligations.ReexecutionRaisesTheSameError : Prop :=
  ∀ (s t : State) (e : Fault) (es : List HostEvent), s.fault = none → step s = next t → t.fault = some e →
    step { deliverAll es t with fault := none } = next (deliverAll es t)

/-- R172: a step hands out a display-notify event exactly when it completes a 00E0 or a Dxyn, also when no
pixel changed, and the event carries the framebuffer at the end of the step (the spec's decision D20, log 4;
that a raising step commits nothing else and latches its error is D10, log 1). -/
def Obligations.NotifyEventExactlyOnClearAndDraw : Prop :=
  ∀ s t : State, step s = next t →
    ((s.fault = none ∧ t.fault = none ∧
        (nextInstr s = some .cls ∨ ∃ x y n, nextInstr s = some (.drw x y n))) →
      (stepOutput s).notify = some t.fb) ∧
    (¬ (s.fault = none ∧ t.fault = none ∧
        (nextInstr s = some .cls ∨ ∃ x y n, nextInstr s = some (.drw x y n))) →
      (stepOutput s).notify = none)

/-! ### Invariants -/

/-- Every step keeps the invariant of R36 and R33 and the canonical form of memory, from every state that
meets it (derived in the spec from R24 to R26, R33; it rests on the spec's decisions D2 and D4, log 10, D8,
log 9, D10, log 1, and D13, log 11; the canonical form is the model's, log 6). -/
def Obligations.StepKeepsInvariant : Prop :=
  ∀ s t : State, Inv s → step s = next t → Inv t

/-- The machine right after reset meets the invariant (R35; the values are the spec's decision D9, logs 5 and
6, the parameters' defaults D1 to D3, log 2). -/
def Obligations.ResetMeetsInvariant : Prop := Inv State.reset

/-- Key events and timer ticks keep the invariant, and a reset with a loadable image establishes it from any
state with admitted parameters (R200 to R202, R250, R36; the spec's decisions D9, logs 5 and 6, and D13, log 11). -/
def Obligations.HostTransactionsKeepInvariant : Prop :=
  (∀ (s : State) (e : HostEvent), Inv s → Inv (e.deliver s)) ∧
  (∀ (s t : State) (rom : List Byte), s.cfg.wf = true → resetAndLoad rom s = next t → Inv t)

/-- R36, spelled out: in every state that any transactions reach from a loaded machine, the stack holds at
most STACK_DEPTH entries, each at most MEM_SIZE, the pc is at most MEM_SIZE + 2, and the key-wait
bookkeeping is empty in Idle and consistent in Waiting (derived in the spec; it rests on the spec's decisions
D2 and D4, log 10, D8, log 9, D9, log 5, and D13, log 11). -/
def Obligations.ReachableStatesAreBounded : Prop :=
  ∀ (s₀ s t : State) (rom : List Byte) (ts : List Transaction),
    s₀.cfg.wf = true → resetAndLoad rom s₀ = next s → runTransactions ts s = next t →
    t.cfg = s₀.cfg ∧ t.stack.length ≤ t.cfg.stackDepth ∧ (∀ w ∈ t.stack, w.toNat ≤ t.cfg.memBytes) ∧
    t.pc.toNat ≤ t.cfg.memBytes + 2 ∧
    (∀ k, t.kw.completed = some k → t.kw.waiting = true ∧ t.kw.pending.has k = true) ∧
    (t.kw.waiting = false → ∀ k, t.kw.pending.has k = false) ∧
    (t.kw.waiting = true → ∃ x, nextInstr t = some (.ldVxK x))

/-- `reset_and_load(rom)` gives every piece of state the value of R35 and copies the image to 0x200 (R250,
R252; the values are the spec's decision D9, logs 5 and 6, for low memory D21, log 20; the two counters that
stand are the model's, log 21); an image that does not fit is refused. -/
def Obligations.ResetAndLoadGivesResetValues : Prop :=
  ∀ (s : State) (rom : List Byte),
    (rom.length ≤ s.cfg.memBytes - 0x200 → ∃ t, resetAndLoad rom s = next t ∧
      (∀ r, t.V r = 0#8) ∧ t.i = 0#16 ∧ t.pc = 0x0200#16 ∧ t.stack = [] ∧ (∀ r c, t.fb.pixel r c = false) ∧
      t.dt = 0#8 ∧ (∀ k, t.keys.has k = false) ∧ t.kw.waiting = false ∧ (∀ k, t.kw.pending.has k = false) ∧
      t.kw.completed = none ∧ t.fault = none ∧ t.cfg = s.cfg ∧ t.draws = s.draws ∧ t.notices = s.notices ∧
      (∀ j, (h : j < rom.length) → t.mem.get (0x200 + j) = rom[j]) ∧
      (∀ a, (a < 0x200 ∨ 0x200 + rom.length ≤ a) → t.mem.get a = 0#8)) ∧
    (s.cfg.memBytes - 0x200 < rom.length →
      resetAndLoad rom s = refused (.imageTooLong rom.length (s.cfg.memBytes - 0x200)))

/-! ### Whole-machine rules -/

/-- Who writes what (R22, R26, R28, R29, R30, R33, R53): I only Annn and Fx1E; the stack only 2nnn and 00EE;
memory only Fx33 and Fx55; the framebuffer and the notify count only 00E0 and Dxyn; DT only Fx15; the
key-wait unit only Fx0A; the key latch and the parameters nothing. That Fx33, Fx55, Fx65 and Dxyn leave I
alone is the spec's decision D18 (log 15); the counts of draws and events are the model's (logs 3, 4). -/
def Obligations.WritersOfEachPieceOfState : Prop :=
  ∀ (i : Instr) (s t : State), exec i s = next t →
    t.keys = s.keys ∧ t.cfg = s.cfg ∧
    (t.i ≠ s.i → (∃ nnn, i = .ldI nnn) ∨ ∃ x, i = .addI x) ∧
    (t.stack ≠ s.stack → i = .ret ∨ ∃ nnn, i = .call nnn) ∧
    (t.mem ≠ s.mem → (∃ x, i = .bcd x) ∨ ∃ x, i = .stm x) ∧
    (t.fb ≠ s.fb ∨ t.notices ≠ s.notices → i = .cls ∨ ∃ x y n, i = .drw x y n) ∧
    (t.dt ≠ s.dt → ∃ x, i = .ldDtVx x) ∧
    (t.kw ≠ s.kw → ∃ x, i = .ldVxK x) ∧
    (t.draws ≠ s.draws → ∃ x nn, i = .rnd x nn)

/-- No instruction writes a general register outside its list in R20 and R21; VF in particular only as a
destination or by 8xy4 to 8xy7, 8xyE and Dxyn. -/
def Obligations.WritersOfRegisters : Prop :=
  ∀ (i : Instr) (s t : State) (r : RegIdx), exec i s = next t → ¬ writesReg i r → t.V r = s.V r

/-- R24's table of how each instruction leaves the pc when no error is raised (additions modulo 65536 are
the spec's decision D8, any target, odd too, is D7, log 9; the pushed pc + 2 is D4, log 10). -/
def Obligations.PcUpdateOfEachInstruction : Prop :=
  ∀ (i : Instr) (s t : State), s.fault = none → exec i s = next t → t.fault = none →
    (∀ nnn, i = .jp nnn ∨ i = .call nnn → t.pc.toNat = nnn.toNat) ∧
    (i = .ret → s.stack = t.stack ++ [t.pc]) ∧
    (∀ x, i = .ldVxK x → t.pc = if s.kw.waiting = true ∧ t.kw.waiting = false then s.pc + 2#16 else s.pc) ∧
    ((∃ x nn, i = .seImm x nn ∨ i = .sneImm x nn) ∨ (∃ x y, i = .seReg x y ∨ i = .sneReg x y) ∨
        (∃ x, i = .skp x ∨ i = .sknp x) → t.pc = s.pc + 4#16 ∨ t.pc = s.pc + 2#16) ∧
    ((∀ nnn, i ≠ .jp nnn ∧ i ≠ .call nnn) → i ≠ .ret → (∀ x, i ≠ .ldVxK x) →
        (∀ x nn, i ≠ .seImm x nn ∧ i ≠ .sneImm x nn) → (∀ x y, i ≠ .seReg x y ∧ i ≠ .sneReg x y) →
        (∀ x, i ≠ .skp x ∧ i ≠ .sknp x) → t.pc = s.pc + 2#16)

/-- R28: no instruction copies a pixel into a register but through VF's collision bit. Two runs that differ
only in the framebuffer go on alike, but for the framebuffer, and but for VF after Dxyn. -/
def Obligations.PixelsReachOnlyVF : Prop :=
  ∀ (i : Instr) (s : State) (fb' : Framebuffer), ∃ t t' : State,
    exec i s = next t ∧ exec i { s with fb := fb' } = next t' ∧
    t' = { t with fb := t'.fb, v := t'.v } ∧ (∀ r, r ≠ VF → t'.V r = t.V r) ∧
    ((∀ x y n, i ≠ .drw x y n) → t'.v = t.v)

/-! ### Control flow -/

/-- R102: JP sets the pc to nnn, and nothing else changes (that any nnn is accepted, an odd one too, is the spec's
decision D7, log 9). -/
def Obligations.JumpSetsPc : Prop :=
  ∀ (nnn : BitVec 12) (s : State), ∃ t, exec (.jp nnn) s = next t ∧
    t.pc.toNat = nnn.toNat ∧ (∀ a, t.mem.get a = s.mem.get a) ∧ t = { s with pc := t.pc }

/-- R103, R222: CALL with room on the stack pushes pc + 2 (the spec's decision D4, log 10) and jumps, to an odd
nnn too (D7, log 9); on a full stack it raises StackOverflow with its own word and pc and changes nothing (D2,
D10; logs 1, 10, 19). -/
def Obligations.CallPushesReturnAddressOrOverflows : Prop :=
  ∀ (nnn : BitVec 12) (s : State),
    (s.stack.length < s.cfg.stackDepth →
      ∃ t, exec (.call nnn) s = next t ∧ t.stack = s.stack ++ [s.pc + 2#16] ∧ t.pc.toNat = nnn.toNat ∧
        (∀ a, t.mem.get a = s.mem.get a) ∧ t = { s with stack := t.stack, pc := t.pc }) ∧
    (s.cfg.stackDepth ≤ s.stack.length →
      ∃ op : Word, op.toNat = 0x2000 + nnn.toNat ∧
        exec (.call nnn) s = next { s with fault := some (.stackOverflow op s.pc) })

/-- R101, R221: RET pops the newest entry and the pc becomes it, nothing added (the spec's decision D4, log 10),
an odd one too (D7, log 9); on an empty stack it raises StackUnderflow(0x00EE, pc) and changes nothing (the
latch is D10, log 1). -/
def Obligations.ReturnPopsIntoPcOrUnderflows : Prop :=
  ∀ s : State,
    (∀ (ws : List Word) (w : Word), s.stack = ws ++ [w] → exec .ret s = next { s with stack := ws, pc := w }) ∧
    (s.stack = [] → exec .ret s = next { s with fault := some (.stackUnderflow 0x00EE#16 s.pc) })

/-- The call and return property (40_control_flow.md R103, D4): after a call at A, as long as the stack
never gets shorter than the call left it, a return at the call's own depth comes back to A + 2, whatever
ran in between and however deep it nested. -/
def Obligations.NestedCallsReturnToCaller : Prop :=
  ∀ (s t u : State) (nnn : BitVec 12) (k : Nat),
    s.stack.length < s.cfg.stackDepth → exec (.call nnn) s = next t →
    runSteps k t = next u →
    (∀ j ≤ k, ∀ m, runSteps j t = next m → t.stack.length ≤ m.stack.length) →
    u.stack.length = t.stack.length →
    ∃ r, exec .ret u = next r ∧ r.pc = s.pc + 2#16 ∧ r.stack = s.stack

/-- R104, R105: SE_IMM and SNE_IMM move the pc by 4 when the condition holds, else by 2, modulo 65536, and
change nothing else. -/
def Obligations.SkipOnImmediate : Prop :=
  ∀ (x : RegIdx) (nn : Byte) (s : State),
    (∃ t, exec (.seImm x nn) s = next t ∧
      t.pc.toNat = (s.pc.toNat + if s.V x = nn then 4 else 2) % 65536 ∧
      OnlyRegsAndPc s t (fun _ => False)) ∧
    (∃ t, exec (.sneImm x nn) s = next t ∧
      t.pc.toNat = (s.pc.toNat + if s.V x ≠ nn then 4 else 2) % 65536 ∧
      OnlyRegsAndPc s t (fun _ => False))

/-- R106, R107: SE_REG and SNE_REG, the same with two registers; x = y always, and never, skips. -/
def Obligations.SkipOnRegisters : Prop :=
  ∀ (x y : RegIdx) (s : State),
    (∃ t, exec (.seReg x y) s = next t ∧
      t.pc.toNat = (s.pc.toNat + if s.V x = s.V y then 4 else 2) % 65536 ∧
      OnlyRegsAndPc s t (fun _ => False)) ∧
    (∃ t, exec (.sneReg x y) s = next t ∧
      t.pc.toNat = (s.pc.toNat + if s.V x ≠ s.V y then 4 else 2) % 65536 ∧
      OnlyRegsAndPc s t (fun _ => False))

/-- R190, R191: SKP and SKNP test the key that the low nibble of V[x] names, and write nothing but the pc. -/
def Obligations.SkipOnKey : Prop :=
  ∀ (x : RegIdx) (k : KeyIdx) (s : State), (s.V x).toNat % 16 = k.val →
    (∃ t, exec (.skp x) s = next t ∧
      t.pc.toNat = (s.pc.toNat + if s.keys.has k = true then 4 else 2) % 65536 ∧
      OnlyRegsAndPc s t (fun _ => False)) ∧
    (∃ t, exec (.sknp x) s = next t ∧
      t.pc.toNat = (s.pc.toNat + if s.keys.has k = true then 2 else 4) % 65536 ∧
      OnlyRegsAndPc s t (fun _ => False))

/-- R257: from an ended state every further step leaves the whole state unchanged, and host events change
only the key latch and DT, the key wait being Idle (the convention is the spec's decision D16, log 22). -/
def Obligations.EndedProgramStaysEnded : Prop :=
  ∀ (s : State), Inv s → Ended s →
    step s = next s ∧
    ∀ ts : List Transaction, NoReset ts → ∃ t, runTransactions ts s = next t ∧ Ended t ∧
      t = { s with keys := t.keys, dt := t.dt }

/-! ### Registers, arithmetic, logic, shifts, random -/

/-- R121: LD_IMM. -/
def Obligations.LoadImmediate : Prop :=
  ∀ (x : RegIdx) (nn : Byte) (s : State), ∃ t, exec (.ldImm x nn) s = next t ∧
    t.V x = nn ∧ t.pc.toNat = (s.pc.toNat + 2) % 65536 ∧ OnlyRegsAndPc s t (fun r => r = x)

/-- R122: ADD_IMM wraps modulo 256 and writes no flag. -/
def Obligations.AddImmediate : Prop :=
  ∀ (x : RegIdx) (nn : Byte) (s : State), ∃ t, exec (.addImm x nn) s = next t ∧
    (t.V x).toNat = ((s.V x).toNat + nn.toNat) % 256 ∧ t.pc.toNat = (s.pc.toNat + 2) % 65536 ∧
    OnlyRegsAndPc s t (fun r => r = x)

/-- R123 to R126: LD_REG, OR, AND, XOR, bit by bit, with no flag. -/
def Obligations.MoveAndLogic : Prop :=
  ∀ (x y : RegIdx) (s : State),
    (∃ t, exec (.ldReg x y) s = next t ∧ t.V x = s.V y ∧
      t.pc.toNat = (s.pc.toNat + 2) % 65536 ∧ OnlyRegsAndPc s t (fun r => r = x)) ∧
    (∃ t, exec (.orReg x y) s = next t ∧
      (∀ j < 8, (t.V x).getLsbD j = ((s.V x).getLsbD j || (s.V y).getLsbD j)) ∧
      t.pc.toNat = (s.pc.toNat + 2) % 65536 ∧ OnlyRegsAndPc s t (fun r => r = x)) ∧
    (∃ t, exec (.andReg x y) s = next t ∧
      (∀ j < 8, (t.V x).getLsbD j = ((s.V x).getLsbD j && (s.V y).getLsbD j)) ∧
      t.pc.toNat = (s.pc.toNat + 2) % 65536 ∧ OnlyRegsAndPc s t (fun r => r = x)) ∧
    (∃ t, exec (.xorReg x y) s = next t ∧
      (∀ j < 8, (t.V x).getLsbD j = ((s.V x).getLsbD j ^^ (s.V y).getLsbD j)) ∧
      t.pc.toNat = (s.pc.toNat + 2) % 65536 ∧ OnlyRegsAndPc s t (fun r => r = x))

/-- R127, R120: ADD_REG. For x other than 0xF the result and the carry; for x = 0xF the result survives
(the order of the writes is the spec's decision D5, log 7). -/
def Obligations.AddWithCarry : Prop :=
  ∀ (x y : RegIdx) (s : State), ∃ t, exec (.addReg x y) s = next t ∧
    (t.V x).toNat = ((s.V x).toNat + (s.V y).toNat) % 256 ∧
    (x ≠ VF → t.V VF = if (s.V x).toNat + (s.V y).toNat > 255 then 1#8 else 0#8) ∧
    t.pc.toNat = (s.pc.toNat + 2) % 65536 ∧ OnlyRegsAndPc s t (fun r => r = x ∨ r = VF)

/-- R128, R130, R120: SUB and SUBN, with VF = 1 meaning no borrow; for x = 0xF the result survives (the
order of the writes is the spec's decision D5, log 7). -/
def Obligations.SubtractWithNoBorrow : Prop :=
  ∀ (x y : RegIdx) (s : State),
    (∃ t, exec (.sub x y) s = next t ∧
      (t.V x).toNat = ((s.V x).toNat + 256 - (s.V y).toNat) % 256 ∧
      (x ≠ VF → t.V VF = if (s.V y).toNat ≤ (s.V x).toNat then 1#8 else 0#8) ∧
      t.pc.toNat = (s.pc.toNat + 2) % 65536 ∧ OnlyRegsAndPc s t (fun r => r = x ∨ r = VF)) ∧
    (∃ t, exec (.subn x y) s = next t ∧
      (t.V x).toNat = ((s.V y).toNat + 256 - (s.V x).toNat) % 256 ∧
      (x ≠ VF → t.V VF = if (s.V x).toNat ≤ (s.V y).toNat then 1#8 else 0#8) ∧
      t.pc.toNat = (s.pc.toNat + 2) % 65536 ∧ OnlyRegsAndPc s t (fun r => r = x ∨ r = VF))

/-- R129, R120: SHR halves V[y] into V[x] and VF receives its bit 0; for x = 0xF VF ends as 0 (the order of
the writes is the spec's decision D5, log 7). -/
def Obligations.ShiftRight : Prop :=
  ∀ (x y : RegIdx) (s : State), ∃ t, exec (.shr x y) s = next t ∧
    (x ≠ VF → (t.V x).toNat = (s.V y).toNat / 2 ∧ (t.V VF).toNat = (s.V y).toNat % 2) ∧
    (x = VF → t.V VF = 0#8) ∧
    t.pc.toNat = (s.pc.toNat + 2) % 65536 ∧ OnlyRegsAndPc s t (fun r => r = x ∨ r = VF)

/-- R131, R120: SHL doubles V[y] modulo 256 into V[x] and VF receives its bit 7; for x = 0xF VF ends as 0 or
2 (the order of the writes is the spec's decision D5, log 7). -/
def Obligations.ShiftLeft : Prop :=
  ∀ (x y : RegIdx) (s : State), ∃ t, exec (.shl x y) s = next t ∧
    (x ≠ VF → (t.V x).toNat = (s.V y).toNat * 2 % 256 ∧ (t.V VF).toNat = (s.V y).toNat / 128) ∧
    (x = VF → (t.V VF).toNat = 2 * ((s.V y).toNat / 128)) ∧
    t.pc.toNat = (s.pc.toNat + 2) % 65536 ∧ OnlyRegsAndPc s t (fun r => r = x ∨ r = VF)

/-- R133, R134: RND masks the next free byte with nn, so that no bit is set that nn has clear, and uses the
byte up, so that the next RND draws a fresh one (the byte is a free value, D11, log 3). -/
def Obligations.RandomIsMaskedFreeByte : Prop :=
  ∀ (x : RegIdx) (nn : Byte) (s : State), ∃ t, exec (.rnd x nn) s = next t ∧
    t.V x = Config.randByte s.draws &&& nn ∧ t.V x &&& ~~~nn = 0#8 ∧ t.draws = s.draws + 1 ∧
    t.pc.toNat = (s.pc.toNat + 2) % 65536 ∧ (∀ r, r ≠ x → t.V r = s.V r) ∧
    (∀ a, t.mem.get a = s.mem.get a) ∧ t = { s with v := t.v, pc := t.pc, draws := t.draws }

/-! ### Index and memory -/

/-- R150: LD_I zero-extends nnn into I. -/
def Obligations.LoadIndex : Prop :=
  ∀ (nnn : BitVec 12) (s : State), ∃ t, exec (.ldI nnn) s = next t ∧
    t.i.toNat = nnn.toNat ∧ t.pc.toNat = (s.pc.toNat + 2) % 65536 ∧
    (∀ a, t.mem.get a = s.mem.get a) ∧ t = { s with i := t.i, pc := t.pc }

/-- R151: ADD_I adds V[x] to I modulo 65536 (the wrap is the spec's decision D8, log 9) and writes no flag. -/
def Obligations.AddToIndex : Prop :=
  ∀ (x : RegIdx) (s : State), ∃ t, exec (.addI x) s = next t ∧
    t.i.toNat = (s.i.toNat + (s.V x).toNat) % 65536 ∧ t.pc.toNat = (s.pc.toNat + 2) % 65536 ∧
    (∀ a, t.mem.get a = s.mem.get a) ∧ t = { s with i := t.i, pc := t.pc }

/-- R152, R155: BCD stores the three decimal digits at I, I + 1, I + 2, and nothing else changes (that I is
kept is the spec's decision D18, log 15; that low memory may be written is D21, log 20). -/
def Obligations.StoreDecimalDigits : Prop :=
  ∀ (x : RegIdx) (s : State), Memory.wf s.mem → s.dataAddr 2 < s.cfg.memBytes → ∃ t, exec (.bcd x) s = next t ∧
    (t.mem.get (s.dataAddr 0)).toNat = (s.V x).toNat / 100 ∧
    (t.mem.get (s.dataAddr 1)).toNat = (s.V x).toNat / 10 % 10 ∧
    (t.mem.get (s.dataAddr 2)).toNat = (s.V x).toNat % 10 ∧
    t.pc.toNat = (s.pc.toNat + 2) % 65536 ∧ OnlyBytesAndPc s t (s.dataAddr 0) 3

/-- R153, R155: STM stores V0 to V[x] from I on, and nothing else changes (I kept: the spec's decision D18,
log 15; low memory may be written: D21, log 20). -/
def Obligations.StoreRegisters : Prop :=
  ∀ (x : RegIdx) (s : State), Memory.wf s.mem → s.dataAddr x.val < s.cfg.memBytes → ∃ t, exec (.stm x) s = next t ∧
    (∀ r : RegIdx, r ≤ x → t.mem.get (s.dataAddr r.val) = s.V r) ∧
    t.pc.toNat = (s.pc.toNat + 2) % 65536 ∧ OnlyBytesAndPc s t (s.dataAddr 0) (x.val + 1)

/-- R154, R155: LDM loads V0 to V[x] from I on, and nothing else changes (I kept: the spec's decision D18,
log 15; low memory may be read: D21, log 20). -/
def Obligations.LoadRegisters : Prop :=
  ∀ (x : RegIdx) (s : State), s.dataAddr x.val < s.cfg.memBytes → ∃ t, exec (.ldm x) s = next t ∧
    (∀ r : RegIdx, r ≤ x → t.V r = s.mem.get (s.dataAddr r.val)) ∧
    t.pc.toNat = (s.pc.toNat + 2) % 65536 ∧ OnlyRegsAndPc s t (fun r => r ≤ x)

/-- R55, R62, R223: a data access of Dxyn, Fx33, Fx55 or Fx65 that leaves memory raises BoundsError with the
first address at which there is no byte, and changes nothing at all, also where the first addresses were
inside (the spec's decisions D8, D10, D17, D19; logs 1, 8, 9, 17). -/
def Obligations.DataAccessOutsideMemoryRaises : Prop :=
  ∀ (x y : RegIdx) (n : BitVec 4) (s : State),
    let raised := next { s with fault := some (.boundsError (max s.i.toNat s.cfg.memBytes)) }
    (s.cfg.memBytes ≤ s.dataAddr 2 → exec (.bcd x) s = raised) ∧
    (s.cfg.memBytes ≤ s.dataAddr x.val → exec (.stm x) s = raised ∧ exec (.ldm x) s = raised) ∧
    (n ≠ 0#4 → s.cfg.memBytes ≤ s.dataAddr (n.toNat - 1) → exec (.drw x y n) s = raised)

/-- R60: a byte that STM stores is what the next fetch reads: no cache, no fence, no delay (derived in the
spec from R50, R51, R58; at an odd pc too: D7, log 9; in low memory too: D21, log 20). -/
def Obligations.StoreIsSeenByNextFetch : Prop :=
  ∀ (x : RegIdx) (s t : State) (j : Nat) (r₁ r₂ : RegIdx), Memory.wf s.mem →
    s.dataAddr x.val < s.cfg.memBytes → exec (.stm x) s = next t → t.pc.toNat = s.dataAddr j → r₁.val = j → r₂.val = j + 1 → r₂ ≤ x →
    fetch t = .ok (wordOfBytes (s.V r₁) (s.V r₂))

/-! ### Display -/

/-- R170: CLS puts all pixels off, emits one display-notify event (D20; counted in `notices`, log 4), and changes
nothing else, VF in particular. -/
def Obligations.ClearScreen : Prop :=
  ∀ s : State, ∃ t, exec .cls s = next t ∧
    (∀ r c, t.fb.pixel r c = false) ∧ t.notices = s.notices + 1 ∧ t.pc.toNat = (s.pc.toNat + 2) % 65536 ∧
    (∀ a, t.mem.get a = s.mem.get a) ∧ t = { s with fb := t.fb, notices := t.notices, pc := t.pc }

/-- R171, R173, R174, R175: DRW inverts exactly the pixels that a sprite bit of 1 lands on, VF = 1 exactly when
one of them was on, one display-notify event is counted, and nothing else changes. The edge policies are
the spec's decision D3, the latched coordinates D6 (log 8), the kept I D18 (log 15), the event D20 (log 4), a
sprite in low memory D21 (log 20). -/
def Obligations.DrawXorsTheSprite : Prop :=
  ∀ (x y : RegIdx) (n : BitVec 4) (s : State), (∀ k < n.toNat, s.dataAddr k < s.cfg.memBytes) →
    ∃ t, exec (.drw x y n) s = next t ∧
      (∀ r c, Covers s x y n r c → t.fb.pixel r c = !s.fb.pixel r c) ∧
      (∀ r c, ¬ Covers s x y n r c → t.fb.pixel r c = s.fb.pixel r c) ∧
      ((∃ r c, Covers s x y n r c ∧ s.fb.pixel r c = true) → t.V VF = 1#8) ∧
      ((¬ ∃ r c, Covers s x y n r c ∧ s.fb.pixel r c = true) → t.V VF = 0#8) ∧
      t.notices = s.notices + 1 ∧ t.pc.toNat = (s.pc.toNat + 2) % 65536 ∧
      (∀ r, r ≠ VF → t.V r = s.V r) ∧ (∀ a, t.mem.get a = s.mem.get a) ∧
      t = { s with v := t.v, fb := t.fb, notices := t.notices, pc := t.pc }

/-- R177: drawing the same sprite twice in succession restores every pixel, and the second draw reports a
collision exactly when a sprite bit landed on a pixel that was off before the first (derived in the spec; the
edge policies D3 and the latched coordinates D6 are log 8, that I is kept between the draws is D18, log 15, a
sprite in low memory D21, log 20). A coordinate register VF is left out, as R177 leaves it out. -/
def Obligations.DrawingTwiceRestoresTheScreen : Prop :=
  ∀ (x y : RegIdx) (n : BitVec 4) (s : State), x ≠ VF → y ≠ VF →
    (∀ k < n.toNat, s.dataAddr k < s.cfg.memBytes) →
    ∃ t u, exec (.drw x y n) s = next t ∧ exec (.drw x y n) t = next u ∧ u.fb = s.fb ∧
      ((∃ r c, Covers s x y n r c ∧ s.fb.pixel r c = false) → u.V VF = 1#8) ∧
      ((¬ ∃ r c, Covers s x y n r c ∧ s.fb.pixel r c = false) → u.V VF = 0#8)

/-- D3 of spec/92_eei_decisions.md: for a sprite that lies on the screen the two edge policies agree (log 8). -/
def Obligations.EdgePoliciesAgreeOnScreen : Prop :=
  ∀ (x y : RegIdx) (n : BitVec 4) (s : State), (s.V x).toNat + 7 < 64 → (s.V y).toNat + n.toNat ≤ 32 →
    ∃ t u, exec (.drw x y n) { s with cfg := { s.cfg with edgePolicy := .clip } } = next t ∧
      exec (.drw x y n) { s with cfg := { s.cfg with edgePolicy := .wrap } } = next u ∧
      u = { t with cfg := u.cfg }

/-! ### Keys and timer -/

/-- R192, R193: LD_VX_DT reads DT without changing it; LD_DT_VX replaces DT, and the next tick is the first
to decrement it. -/
def Obligations.DelayTimerAccess : Prop :=
  ∀ (x : RegIdx) (s : State),
    (∃ t, exec (.ldVxDt x) s = next t ∧ t.V x = s.dt ∧ t.pc.toNat = (s.pc.toNat + 2) % 65536 ∧
      OnlyRegsAndPc s t (fun r => r = x)) ∧
    (∃ t, exec (.ldDtVx x) s = next t ∧ t.dt = s.V x ∧ t.pc.toNat = (s.pc.toNat + 2) % 65536 ∧
      (tickDelayTimer t).dt.toNat = (s.V x).toNat - 1 ∧
      (∀ a, t.mem.get a = s.mem.get a) ∧ t = { s with dt := t.dt, pc := t.pc })

/-- R202: a tick takes 1 from DT, floored at 0, and changes nothing else. -/
def Obligations.TickDecrementsToZero : Prop :=
  ∀ s : State, (tickDelayTimer s).dt.toNat = s.dt.toNat - 1 ∧
    tickDelayTimer s = { s with dt := (tickDelayTimer s).dt }

/-- R200: key_down sets the latch's flag and, in Waiting only, makes the key pending (that an event in Idle
touches only the latch is the spec's decision D13, log 11). -/
def Obligations.KeyDownSetsLatchAndPending : Prop :=
  ∀ (k : KeyIdx) (s : State),
    (∀ j, (keyDown k s).keys.has j = (decide (j = k) || s.keys.has j)) ∧
    (∀ j, (keyDown k s).kw.pending.has j = (s.kw.waiting && decide (j = k) || s.kw.pending.has j)) ∧
    keyDown k s = { s with keys := (keyDown k s).keys, kw := { s.kw with pending := (keyDown k s).kw.pending } }

/-- R201: key_up clears the latch's flag and, in Waiting and for a pending key only, makes it the completed
key, the latest winning; the key stays pending (the spec's decision D13, log 11). `is_key_down` reads the
latch (R203). -/
def Obligations.KeyUpClearsLatchAndCompletes : Prop :=
  ∀ (k : KeyIdx) (s : State),
    (∀ j, isKeyDown j (keyUp k s) = (decide (j ≠ k) && isKeyDown j s)) ∧
    (s.kw.waiting = true → s.kw.pending.has k = true → (keyUp k s).kw.completed = some k) ∧
    (¬ (s.kw.waiting = true ∧ s.kw.pending.has k = true) → (keyUp k s).kw.completed = s.kw.completed) ∧
    keyUp k s =
      { s with keys := (keyUp k s).keys, kw := { s.kw with completed := (keyUp k s).kw.completed } }

/-- R194, R196: the first execution of LD_VX_K enters Waiting with empty bookkeeping, whatever keys are
down, and writes nothing else: the pc stays (the spec's decision D13, log 11). -/
def Obligations.KeyWaitEntersWaiting : Prop :=
  ∀ (x : RegIdx) (s : State), s.kw.waiting = false → ∃ t, exec (.ldVxK x) s = next t ∧
    t.kw.waiting = true ∧ (∀ k, t.kw.pending.has k = false) ∧ t.kw.completed = none ∧
    t.pc = s.pc ∧ (∀ a, t.mem.get a = s.mem.get a) ∧ t = { s with kw := t.kw }

/-- R197: in Waiting without a completed key, LD_VX_K writes nothing at all, and however often the host
steps the machine stays where it is. -/
def Obligations.KeyWaitPollsWithoutChange : Prop :=
  ∀ (x : RegIdx) (s : State), s.kw.waiting = true → s.kw.completed = none →
    exec (.ldVxK x) s = next s ∧
    (s.fault = none → nextInstr s = some (.ldVxK x) → ∀ n, runSteps n s = next s)

/-- R194, R198: in Waiting with a completed key and a pending set that is not empty, LD_VX_K puts the key's
number into V[x], clears all three parts of the key-wait state and moves on (D13, log 11). -/
def Obligations.KeyWaitCompletes : Prop :=
  ∀ (x : RegIdx) (k j : KeyIdx) (s : State), s.kw.waiting = true → s.kw.completed = some k →
    s.kw.pending.has j = true → ∃ t, exec (.ldVxK x) s = next t ∧
      (t.V x).toNat = k.val ∧ t.kw.waiting = false ∧ (∀ m, t.kw.pending.has m = false) ∧
      t.kw.completed = none ∧ t.pc.toNat = (s.pc.toNat + 2) % 65536 ∧ (∀ r, r ≠ x → t.V r = s.V r) ∧
      (∀ a, t.mem.get a = s.mem.get a) ∧ t = { s with v := t.v, kw := t.kw, pc := t.pc }

/-- R204, R195: the spec's scenario, for every key and register: a step that enters the wait, a press, a
step, the release, a step; V[x] holds the key, the machine is Idle and the pc has moved by 2 (D13, log 11). -/
def Obligations.PressThenReleaseEndsTheWait : Prop :=
  ∀ (x : RegIdx) (k : KeyIdx) (s : State), s.fault = none → s.kw.waiting = false →
    nextInstr s = some (.ldVxK x) →
    ∃ w t, runTransactions [.step, .event (.keyDown k), .step] s = next w ∧ w.pc = s.pc ∧ w.v = s.v ∧
      runTransactions [.event (.keyUp k), .step] w = next t ∧
      (t.V x).toNat = k.val ∧ t.pc = s.pc + 2#16 ∧ t.kw = KeyWait.idle ∧ t.keys.has k = false

/-- R199: only a key-up whose key-down was seen while Waiting counts. Whatever events arrive, as long as
none is such a release, a step leaves every register and the pc as they were and the wait goes on
(derived in the spec; D13, log 11). -/
def Obligations.OtherEventsDoNotEndTheWait : Prop :=
  ∀ (x : RegIdx) (s : State) (es : List HostEvent), s.fault = none → s.kw.waiting = true →
    s.kw.completed = none → nextInstr s = some (.ldVxK x) → NoQualifyingRelease s.kw.pending es →
    step (deliverAll es s) = next (deliverAll es s) ∧
    (deliverAll es s).kw.waiting = true ∧ (deliverAll es s).kw.completed = none ∧
    (deliverAll es s).v = s.v ∧ (deliverAll es s).pc = s.pc
end

