-- ==== Sys2Proof/Laws/State.lean ====
section
/-! SUPPORT. One lemma per field and named update of State, each true by unfolding, so that no proof has to
unfold a record update. -/

namespace Sys2Proof.Machine

namespace State

@[simp] theorem setV_v (s : State) (x : RegIdx) (b : Byte) : (s.setV x b).v = s.v.set x b := rfl
@[simp] theorem setV_i (s : State) (x : RegIdx) (b : Byte) : (s.setV x b).i = s.i := rfl
@[simp] theorem setV_pc (s : State) (x : RegIdx) (b : Byte) : (s.setV x b).pc = s.pc := rfl
@[simp] theorem setV_stack (s : State) (x : RegIdx) (b : Byte) : (s.setV x b).stack = s.stack := rfl
@[simp] theorem setV_mem (s : State) (x : RegIdx) (b : Byte) : (s.setV x b).mem = s.mem := rfl
@[simp] theorem setV_fb (s : State) (x : RegIdx) (b : Byte) : (s.setV x b).fb = s.fb := rfl
@[simp] theorem setV_dt (s : State) (x : RegIdx) (b : Byte) : (s.setV x b).dt = s.dt := rfl
@[simp] theorem setV_keys (s : State) (x : RegIdx) (b : Byte) : (s.setV x b).keys = s.keys := rfl
@[simp] theorem setV_kw (s : State) (x : RegIdx) (b : Byte) : (s.setV x b).kw = s.kw := rfl
@[simp] theorem setV_fault (s : State) (x : RegIdx) (b : Byte) : (s.setV x b).fault = s.fault := rfl
@[simp] theorem setV_cfg (s : State) (x : RegIdx) (b : Byte) : (s.setV x b).cfg = s.cfg := rfl
@[simp] theorem setV_draws (s : State) (x : RegIdx) (b : Byte) : (s.setV x b).draws = s.draws := rfl
@[simp] theorem setV_notices (s : State) (x : RegIdx) (b : Byte) : (s.setV x b).notices = s.notices := rfl

@[simp] theorem advance_v (s : State) : (s.advance).v = s.v := rfl
@[simp] theorem advance_i (s : State) : (s.advance).i = s.i := rfl
@[simp] theorem advance_pc (s : State) : (s.advance).pc = s.pc + 2#16 := rfl
@[simp] theorem advance_stack (s : State) : (s.advance).stack = s.stack := rfl
@[simp] theorem advance_mem (s : State) : (s.advance).mem = s.mem := rfl
@[simp] theorem advance_fb (s : State) : (s.advance).fb = s.fb := rfl
@[simp] theorem advance_dt (s : State) : (s.advance).dt = s.dt := rfl
@[simp] theorem advance_keys (s : State) : (s.advance).keys = s.keys := rfl
@[simp] theorem advance_kw (s : State) : (s.advance).kw = s.kw := rfl
@[simp] theorem advance_fault (s : State) : (s.advance).fault = s.fault := rfl
@[simp] theorem advance_cfg (s : State) : (s.advance).cfg = s.cfg := rfl
@[simp] theorem advance_draws (s : State) : (s.advance).draws = s.draws := rfl
@[simp] theorem advance_notices (s : State) : (s.advance).notices = s.notices := rfl

@[simp] theorem skipIf_v (s : State) (c : Bool) : (s.skipIf c).v = s.v := rfl
@[simp] theorem skipIf_i (s : State) (c : Bool) : (s.skipIf c).i = s.i := rfl
@[simp] theorem skipIf_pc (s : State) (c : Bool) : (s.skipIf c).pc = if c then s.pc + 4#16 else s.pc + 2#16 := rfl
@[simp] theorem skipIf_stack (s : State) (c : Bool) : (s.skipIf c).stack = s.stack := rfl
@[simp] theorem skipIf_mem (s : State) (c : Bool) : (s.skipIf c).mem = s.mem := rfl
@[simp] theorem skipIf_fb (s : State) (c : Bool) : (s.skipIf c).fb = s.fb := rfl
@[simp] theorem skipIf_dt (s : State) (c : Bool) : (s.skipIf c).dt = s.dt := rfl
@[simp] theorem skipIf_keys (s : State) (c : Bool) : (s.skipIf c).keys = s.keys := rfl
@[simp] theorem skipIf_kw (s : State) (c : Bool) : (s.skipIf c).kw = s.kw := rfl
@[simp] theorem skipIf_fault (s : State) (c : Bool) : (s.skipIf c).fault = s.fault := rfl
@[simp] theorem skipIf_cfg (s : State) (c : Bool) : (s.skipIf c).cfg = s.cfg := rfl
@[simp] theorem skipIf_draws (s : State) (c : Bool) : (s.skipIf c).draws = s.draws := rfl
@[simp] theorem skipIf_notices (s : State) (c : Bool) : (s.skipIf c).notices = s.notices := rfl

@[simp] theorem jump_v (s : State) (nnn : BitVec 12) : (s.jump nnn).v = s.v := rfl
@[simp] theorem jump_i (s : State) (nnn : BitVec 12) : (s.jump nnn).i = s.i := rfl
@[simp] theorem jump_pc (s : State) (nnn : BitVec 12) : (s.jump nnn).pc = nnn.zeroExtend 16 := rfl
@[simp] theorem jump_stack (s : State) (nnn : BitVec 12) : (s.jump nnn).stack = s.stack := rfl
@[simp] theorem jump_mem (s : State) (nnn : BitVec 12) : (s.jump nnn).mem = s.mem := rfl
@[simp] theorem jump_fb (s : State) (nnn : BitVec 12) : (s.jump nnn).fb = s.fb := rfl
@[simp] theorem jump_dt (s : State) (nnn : BitVec 12) : (s.jump nnn).dt = s.dt := rfl
@[simp] theorem jump_keys (s : State) (nnn : BitVec 12) : (s.jump nnn).keys = s.keys := rfl
@[simp] theorem jump_kw (s : State) (nnn : BitVec 12) : (s.jump nnn).kw = s.kw := rfl
@[simp] theorem jump_fault (s : State) (nnn : BitVec 12) : (s.jump nnn).fault = s.fault := rfl
@[simp] theorem jump_cfg (s : State) (nnn : BitVec 12) : (s.jump nnn).cfg = s.cfg := rfl
@[simp] theorem jump_draws (s : State) (nnn : BitVec 12) : (s.jump nnn).draws = s.draws := rfl
@[simp] theorem jump_notices (s : State) (nnn : BitVec 12) : (s.jump nnn).notices = s.notices := rfl

@[simp] theorem push_v (s : State) (w : Word) : (s.push w).v = s.v := rfl
@[simp] theorem push_i (s : State) (w : Word) : (s.push w).i = s.i := rfl
@[simp] theorem push_pc (s : State) (w : Word) : (s.push w).pc = s.pc := rfl
@[simp] theorem push_stack (s : State) (w : Word) : (s.push w).stack = s.stack ++ [w] := rfl
@[simp] theorem push_mem (s : State) (w : Word) : (s.push w).mem = s.mem := rfl
@[simp] theorem push_fb (s : State) (w : Word) : (s.push w).fb = s.fb := rfl
@[simp] theorem push_dt (s : State) (w : Word) : (s.push w).dt = s.dt := rfl
@[simp] theorem push_keys (s : State) (w : Word) : (s.push w).keys = s.keys := rfl
@[simp] theorem push_kw (s : State) (w : Word) : (s.push w).kw = s.kw := rfl
@[simp] theorem push_fault (s : State) (w : Word) : (s.push w).fault = s.fault := rfl
@[simp] theorem push_cfg (s : State) (w : Word) : (s.push w).cfg = s.cfg := rfl
@[simp] theorem push_draws (s : State) (w : Word) : (s.push w).draws = s.draws := rfl
@[simp] theorem push_notices (s : State) (w : Word) : (s.push w).notices = s.notices := rfl

@[simp] theorem notifyDisplay_v (s : State) : (s.notifyDisplay).v = s.v := rfl
@[simp] theorem notifyDisplay_i (s : State) : (s.notifyDisplay).i = s.i := rfl
@[simp] theorem notifyDisplay_pc (s : State) : (s.notifyDisplay).pc = s.pc := rfl
@[simp] theorem notifyDisplay_stack (s : State) : (s.notifyDisplay).stack = s.stack := rfl
@[simp] theorem notifyDisplay_mem (s : State) : (s.notifyDisplay).mem = s.mem := rfl
@[simp] theorem notifyDisplay_fb (s : State) : (s.notifyDisplay).fb = s.fb := rfl
@[simp] theorem notifyDisplay_dt (s : State) : (s.notifyDisplay).dt = s.dt := rfl
@[simp] theorem notifyDisplay_keys (s : State) : (s.notifyDisplay).keys = s.keys := rfl
@[simp] theorem notifyDisplay_kw (s : State) : (s.notifyDisplay).kw = s.kw := rfl
@[simp] theorem notifyDisplay_fault (s : State) : (s.notifyDisplay).fault = s.fault := rfl
@[simp] theorem notifyDisplay_cfg (s : State) : (s.notifyDisplay).cfg = s.cfg := rfl
@[simp] theorem notifyDisplay_draws (s : State) : (s.notifyDisplay).draws = s.draws := rfl
@[simp] theorem notifyDisplay_notices (s : State) : (s.notifyDisplay).notices = s.notices + 1 := rfl

end State

end Sys2Proof.Machine
end

