-- ==== Sys2Proof/Laws/Memory.lean ====
section
/-! SUPPORT. The laws of memory: a read after a write, the canonical form, the bounds check, and what the
checked accesses can do. -/

namespace Sys2Proof.Machine

/-! ### Reads -/

theorem Memory.get_cons (m : Memory) (a b : Nat) (v : Byte) (h : m.get a = Memory.blankByte) :
    (Memory.cons a v m).get b = if b = a then v else m.get b := by
  unfold Memory.cons
  split
  · next hv =>
    split
    · next hb => rw [hb, h, hv]
    · rfl
  · simp only [Memory.get]
    by_cases hb : b = a
    · simp [hb]
    · simp [hb, Ne.symm hb]

/-- An address below every listed one reads as blank. -/
theorem Memory.get_below (m : Memory) (a : Nat) (h : ∀ p ∈ m, a < p.1) : m.get a = Memory.blankByte := by
  induction m with
  | nil => rfl
  | cons p m ih =>
    have hp := h p (by simp)
    simp only [Memory.get]
    rw [if_neg (by omega)]
    exact ih (fun q hq => h q (by simp [hq]))

/-- A read after a write: the byte written, or what was there before. -/
theorem Memory.get_set (m : Memory) (hm : m.wf) (a b : Nat) (v : Byte) :
    (m.set a v).get b = if b = a then v else m.get b := by
  induction m with
  | nil => exact Memory.get_cons [] a b v rfl
  | cons p m ih =>
    obtain ⟨hs, hn⟩ := hm
    have hs' := List.pairwise_cons.mp hs
    have ih' := ih ⟨hs'.2, fun q hq => hn q (by simp [hq])⟩
    obtain ⟨a', b'⟩ := p
    simp only [Memory.set]
    split
    · next hlt =>
      simp only [Memory.get]
      rw [ih']
      by_cases hb : a' = b
      · have : b ≠ a := by omega
        simp [hb, this]
      · simp [hb]
    · next hge =>
      split
      · next heq =>
        subst heq
        rw [Memory.get_cons _ _ _ _ (Memory.get_below m a' (fun q hq => hs'.1 q hq))]
        simp only [Memory.get]
        by_cases hb : b = a'
        · simp [hb]
        · simp [hb, Ne.symm hb]
      · next hne =>
        refine Memory.get_cons _ _ _ _ (Memory.get_below _ a ?_)
        intro q hq
        rcases List.mem_cons.mp hq with rfl | hq
        · show a < a'; omega
        · have h2 : a' < q.1 := hs'.1 q hq
          omega

/-! ### The canonical form -/

theorem Memory.mem_cons {m : Memory} {a : Nat} {v : Byte} {p : Host.Cell} (h : p ∈ Memory.cons a v m) :
    p = (a, v) ∧ v ≠ Memory.blankByte ∨ p ∈ m := by
  unfold Memory.cons at h
  split at h
  · exact .inr h
  · next hv =>
    rcases List.mem_cons.mp h with rfl | h
    · exact .inl ⟨rfl, hv⟩
    · exact .inr h

theorem Memory.mem_set {m : Memory} {a : Nat} {v : Byte} {p : Host.Cell} (h : p ∈ m.set a v) :
    p = (a, v) ∧ v ≠ Memory.blankByte ∨ p ∈ m := by
  induction m with
  | nil => exact Memory.mem_cons h
  | cons q m ih =>
    obtain ⟨a', b'⟩ := q
    simp only [Memory.set] at h
    split at h
    · rcases List.mem_cons.mp h with rfl | h
      · exact .inr (by simp)
      · exact (ih h).imp id (fun h => by simp [h])
    · split at h
      · exact (Memory.mem_cons h).imp id (fun h => by simp [h])
      · exact Memory.mem_cons h

theorem Memory.wf_cons {m : Memory} (hm : m.wf) {a : Nat} {v : Byte} (h : ∀ p ∈ m, a < p.1) :
    (Memory.cons a v m).wf := by
  unfold Memory.cons
  split
  · exact hm
  · next hv =>
    refine ⟨List.pairwise_cons.mpr ⟨h, hm.1⟩, ?_⟩
    intro p hp
    rcases List.mem_cons.mp hp with rfl | hp
    · exact hv
    · exact hm.2 p hp

/-- A store keeps the canonical form. -/
theorem Memory.wf_set {m : Memory} (hm : m.wf) (a : Nat) (v : Byte) : (m.set a v).wf := by
  induction m with
  | nil => exact Memory.wf_cons hm (by simp)
  | cons q m ih =>
    obtain ⟨a', b'⟩ := q
    have hs := List.pairwise_cons.mp hm.1
    have hm' : Memory.wf m := ⟨hs.2, fun p hp => hm.2 p (by simp [hp])⟩
    simp only [Memory.set]
    split
    · next hlt =>
      refine ⟨List.pairwise_cons.mpr ⟨?_, (ih hm').1⟩, ?_⟩
      · intro p hp
        rcases Memory.mem_set hp with ⟨rfl, -⟩ | hp
        · exact hlt
        · exact hs.1 p hp
      · intro p hp
        rcases List.mem_cons.mp hp with rfl | hp
        · exact hm.2 _ (by simp)
        · exact (ih hm').2 p hp
    · split
      · next heq => subst heq; exact Memory.wf_cons hm' hs.1
      · next hge hne =>
        refine Memory.wf_cons hm ?_
        intro p hp
        rcases List.mem_cons.mp hp with rfl | hp
        · show a < a'; omega
        · have h2 : a' < p.1 := hs.1 p hp
          omega

/-- A store of several bytes keeps the canonical form. -/
theorem Memory.wf_setAll {m : Memory} (hm : m.wf) (a : Nat) (bs : List Byte) : (m.setAll a bs).wf := by
  induction bs generalizing m a with
  | nil => exact hm
  | cons b bs ih => exact ih (Memory.wf_set hm a b) (a + 1)

/-- Memory with nothing listed is in the canonical form. -/
theorem Memory.wf_nil : Memory.wf [] := by
  simp [Memory.wf]

/-- Memory at reset is in the canonical form. -/
theorem Memory.wf_reset (c : Config) : (State.powerOn c).mem.wf := Memory.wf_nil

/-- Memory at the machine's reset state is in the canonical form. -/
theorem Memory.wf_reset_state : State.reset.mem.wf := Memory.wf_nil

/-- A store lists no address outside the stored range that was not listed before. -/
theorem Memory.mem_setAll {m : Memory} {a : Nat} {bs : List Byte} {p : Host.Cell} (h : p ∈ m.setAll a bs) :
    (a ≤ p.1 ∧ p.1 < a + bs.length) ∨ p ∈ m := by
  induction bs generalizing m a with
  | nil => exact .inr h
  | cons b bs ih =>
    rcases ih h with ⟨h1, h2⟩ | h
    · simp only [List.length_cons]; left; omega
    · rcases Memory.mem_set h with ⟨rfl, -⟩ | h
      · simp
      · exact .inr h

/-- A read after a store of several bytes. -/
theorem Memory.get_setAll {m : Memory} (hm : m.wf) (a : Nat) (bs : List Byte) (b : Nat) :
    (m.setAll a bs).get b = if h : a ≤ b ∧ b - a < bs.length then bs[b - a]'h.2 else m.get b := by
  induction bs generalizing m a with
  | nil => simp [Memory.setAll]
  | cons v bs ih =>
    rw [Memory.setAll, ih (Memory.wf_set hm a v) (a + 1), Memory.get_set m hm]
    by_cases hb : b = a
    · subst hb
      have : ¬ (b + 1 ≤ b) := by omega
      simp [this]
    · by_cases h : a + 1 ≤ b ∧ b - (a + 1) < bs.length
      · have h' : a ≤ b ∧ b - a < (v :: bs).length := by simp only [List.length_cons]; omega
        have e : b - a = (b - (a + 1)) + 1 := by omega
        simp [h, h', e]
      · have h' : ¬ (a ≤ b ∧ b - a < (v :: bs).length) := by simp only [List.length_cons]; omega
        simp only [dif_neg h, dif_neg h', if_neg hb]

@[simp] theorem Memory.length_getAll (m : Memory) (a n : Nat) : (m.getAll a n).length = n := by
  induction n generalizing a with
  | zero => rfl
  | succ n ih => simp [Memory.getAll, ih]

@[simp] theorem Memory.getElem_getAll (m : Memory) (a n k : Nat) (h : k < (m.getAll a n).length) :
    (m.getAll a n)[k] = m.get (a + k) := by
  induction n generalizing a k with
  | zero => simp [Memory.getAll] at h
  | succ n ih =>
    cases k with
    | zero => simp [Memory.getAll]
    | succ k =>
      simp only [Memory.getAll, List.getElem_cons_succ]
      rw [ih]
      congr 1; omega

/-! ### The bounds check and the checked accesses -/

theorem firstOutside_eq_none {size a n : Nat} (h : n = 0 ∨ a + n ≤ size) : firstOutside size a n = none := by
  induction n generalizing a with
  | zero => rfl
  | succ n ih =>
    rw [firstOutside, if_neg (by omega)]
    exact ih (by omega)

/-- The first bad address is the start or the first one after memory, whichever is greater. -/
theorem firstOutside_eq_some {size a n : Nat} (hn : 0 < n) (h : size < a + n) :
    firstOutside size a n = some (max a size) := by
  induction n generalizing a with
  | zero => omega
  | succ n ih =>
    rw [firstOutside]
    split
    · congr 1; omega
    · rw [ih (by omega) (by omega)]
      congr 1; omega

/-- All that a bounds check can answer. -/
theorem firstOutside_cases (size a n : Nat) :
    (firstOutside size a n = none ∧ (n = 0 ∨ a + n ≤ size)) ∨
    (firstOutside size a n = some (max a size) ∧ 0 < n ∧ size < a + n) := by
  by_cases h : n = 0 ∨ a + n ≤ size
  · exact .inl ⟨firstOutside_eq_none h, h⟩
  · exact .inr ⟨firstOutside_eq_some (by omega) (by omega), by omega, by omega⟩

/-- All that `readBytes` can answer. -/
theorem readBytes_cases (s : State) (a n : Nat) :
    (readBytes s a n = .ok (s.mem.getAll a n) ∧ (n = 0 ∨ a + n ≤ s.cfg.memBytes)) ∨
    (readBytes s a n = .error (.boundsError (max a s.cfg.memBytes)) ∧ 0 < n ∧ s.cfg.memBytes < a + n) := by
  rcases firstOutside_cases s.cfg.memBytes a n with ⟨h, h'⟩ | ⟨h, h'⟩
  · exact .inl ⟨by simp [readBytes, h], h'⟩
  · exact .inr ⟨by simp [readBytes, h], h'⟩

/-- All that `storeBytes` can answer. -/
theorem storeBytes_cases (s : State) (a : Nat) (bs : List Byte) :
    (storeBytes s a bs = .ok { s with mem := s.mem.setAll a bs } ∧
      (bs.length = 0 ∨ a + bs.length ≤ s.cfg.memBytes)) ∨
    (storeBytes s a bs = .error (.boundsError (max a s.cfg.memBytes)) ∧ 0 < bs.length ∧
      s.cfg.memBytes < a + bs.length) := by
  rcases firstOutside_cases s.cfg.memBytes a bs.length with ⟨h, h'⟩ | ⟨h, h'⟩
  · exact .inl ⟨by simp [storeBytes, h], h'⟩
  · exact .inr ⟨by simp [storeBytes, h], h'⟩

theorem readBytes_ok {s : State} {a n : Nat} (h : n = 0 ∨ a + n ≤ s.cfg.memBytes) :
    readBytes s a n = .ok (s.mem.getAll a n) := by
  simp [readBytes, firstOutside_eq_none h]

theorem storeBytes_ok {s : State} {a : Nat} {bs : List Byte} (h : a + bs.length ≤ s.cfg.memBytes) :
    storeBytes s a bs = .ok { s with mem := s.mem.setAll a bs } := by
  simp [storeBytes, firstOutside_eq_none (.inr h)]

end Sys2Proof.Machine
end

