-- ==== Sys2Proof/Laws/Registers.lean ====
section
/-! SUPPORT. Register accesses: what is read after a write. -/

namespace Sys2Proof.Machine

@[simp] theorem V_setV_same (s : State) (x : RegIdx) (b : Byte) : (s.setV x b).V x = b := by
  simp [State.V, State.setV]

theorem V_setV_other (s : State) {x r : RegIdx} (b : Byte) (h : r ≠ x) : (s.setV x b).V r = s.V r := by
  simp only [State.V, State.setV, Fin.getElem_fin]
  exact Vector.getElem_set_ne x.isLt r.isLt (fun hx => h (Fin.ext hx.symm))

@[simp] theorem V_advance (s : State) (r : RegIdx) : s.advance.V r = s.V r := rfl

@[simp] theorem V_skipIf (s : State) (c : Bool) (r : RegIdx) : (s.skipIf c).V r = s.V r := rfl

@[simp] theorem V_jump (s : State) (n : BitVec 12) (r : RegIdx) : (s.jump n).V r = s.V r := rfl

@[simp] theorem V_notifyDisplay (s : State) (r : RegIdx) : s.notifyDisplay.V r = s.V r := rfl

/-- Equal registers everywhere make equal register files. -/
theorem v_ext {s t : State} (h : ∀ r, s.V r = t.V r) : s.v = t.v := by
  apply Vector.ext
  intro k hk
  exact h ⟨k, hk⟩

/-- What `loadRegs` leaves in register `r`: byte `r - k` of the list where there is one. -/
theorem getElem_loadRegs (bs : List Byte) (v : Vector Byte 16) (k r : Nat) (hr : r < 16) :
    (loadRegs v k bs)[r] = if h : k ≤ r ∧ r - k < bs.length then bs[r - k]'h.2 else v[r] := by
  induction bs generalizing v k with
  | nil => simp [loadRegs]
  | cons b bs ih =>
    rw [loadRegs, ih]
    by_cases hk : k = r
    · subst hk
      have : ¬ (k + 1 ≤ k) := by omega
      simp [this]
    · by_cases h : k + 1 ≤ r ∧ r - (k + 1) < bs.length
      · have h' : k ≤ r ∧ r - k < (b :: bs).length := by simp only [List.length_cons]; omega
        have e : r - k = (r - (k + 1)) + 1 := by omega
        simp [h, h', e]
      · have h' : ¬ (k ≤ r ∧ r - k < (b :: bs).length) := by simp only [List.length_cons]; omega
        rw [dif_neg h, dif_neg h', Vector.getElem_setIfInBounds_ne hr hk]

/-! ### Key sets -/

@[simp] theorem KeySet.has_empty (k : KeyIdx) : KeySet.empty.has k = false := by
  simp [KeySet.has, KeySet.empty]

theorem KeySet.has_insert (ks : KeySet) (k j : KeyIdx) :
    (ks.insert k).has j = (decide (j = k) || ks.has j) := by
  simp only [KeySet.has, KeySet.insert, Fin.getElem_fin, Vector.getElem_set]
  by_cases h : k = j
  · simp [h]
  · have hv : k.val ≠ j.val := fun e => h (Fin.ext e)
    have : j ≠ k := fun e => h e.symm
    simp [hv, this]

theorem KeySet.has_erase (ks : KeySet) (k j : KeyIdx) :
    (ks.erase k).has j = (decide (j ≠ k) && ks.has j) := by
  simp only [KeySet.has, KeySet.erase, Fin.getElem_fin, Vector.getElem_set]
  by_cases h : k = j
  · simp [h]
  · have hv : k.val ≠ j.val := fun e => h (Fin.ext e)
    have : j ≠ k := fun e => h e.symm
    simp [hv, this]

/-- A set with a member is not the empty set. -/
theorem KeySet.ne_empty_of_has {ks : KeySet} {k : KeyIdx} (h : ks.has k = true) : ks ≠ KeySet.empty := by
  rintro rfl
  simp at h

/-- A set without members is the empty set. -/
theorem KeySet.eq_empty {ks : KeySet} (h : ∀ k, ks.has k = false) : ks = KeySet.empty := by
  apply Vector.ext
  intro k hk
  simpa [KeySet.has, KeySet.empty] using h ⟨k, hk⟩

end Sys2Proof.Machine
end

