-- ==== Sys2Proof/Laws/Exec.lean ====
section
/-! SUPPORT. What each meaning can answer: one lemma per meaning that can raise, and what holds of all. -/

namespace Sys2Proof.Machine

/-- All that `orRaise` can answer. -/
theorem orRaise_cases {α : Type} (s : State) (r : Except Fault α) (k : α → State) :
    (∃ a, r = .ok a ∧ orRaise s r k = .next (k a)) ∨ (∃ e, r = .error e ∧ orRaise s r k = raise e s) := by
  cases r with
  | ok a => exact .inl ⟨a, rfl, rfl⟩
  | error e => exact .inr ⟨e, rfl, rfl⟩

@[simp] theorem length_regsUpTo (s : State) (x : RegIdx) : (s.regsUpTo x).length = x.val + 1 := by
  have := x.isLt
  simp [State.regsUpTo]

@[simp] theorem getElem_regsUpTo (s : State) (x : RegIdx) (k : Nat) (h : k < (s.regsUpTo x).length) :
    (s.regsUpTo x)[k] = s.V ⟨k, by have := x.isLt; simp at h; omega⟩ := by
  simp [State.regsUpTo, State.V]

@[simp] theorem length_decimalDigits (b : Byte) : (decimalDigits b).length = 3 := rfl

/-- BCD completes, or raises and changes nothing (R152). -/
theorem execBcd_cases (x : RegIdx) (s : State) :
    (execBcd x s = .next { s with mem := s.mem.setAll (s.dataAddr 0) (decimalDigits (s.V x)) }.advance ∧
      s.dataAddr 0 + 3 ≤ s.cfg.memBytes) ∨
    (execBcd x s = raise (.boundsError (max (s.dataAddr 0) s.cfg.memBytes)) s ∧
      s.cfg.memBytes < s.dataAddr 0 + 3) := by
  rcases storeBytes_cases s (s.dataAddr 0) (decimalDigits (s.V x)) with ⟨h, h'⟩ | ⟨h, -, h'⟩
  · exact .inl ⟨by simp [execBcd, State.storeAtI, h, orRaise], by simpa using h'⟩
  · exact .inr ⟨by simp [execBcd, State.storeAtI, h, orRaise], by simpa using h'⟩

/-- STM completes, or raises and changes nothing (R153). -/
theorem execStm_cases (x : RegIdx) (s : State) :
    (execStm x s = .next { s with mem := s.mem.setAll (s.dataAddr 0) (s.regsUpTo x) }.advance ∧
      s.dataAddr 0 + (x.val + 1) ≤ s.cfg.memBytes) ∨
    (execStm x s = raise (.boundsError (max (s.dataAddr 0) s.cfg.memBytes)) s ∧
      s.cfg.memBytes < s.dataAddr 0 + (x.val + 1)) := by
  rcases storeBytes_cases s (s.dataAddr 0) (s.regsUpTo x) with ⟨h, h'⟩ | ⟨h, -, h'⟩
  · exact .inl ⟨by simp [execStm, State.storeAtI, h, orRaise], by simpa using h'⟩
  · exact .inr ⟨by simp [execStm, State.storeAtI, h, orRaise], by simpa using h'⟩

/-- LDM completes, or raises and changes nothing (R154). -/
theorem execLdm_cases (x : RegIdx) (s : State) :
    (execLdm x s =
        .next { s with v := loadRegs s.v 0 (s.mem.getAll (s.dataAddr 0) (x.val + 1)) }.advance ∧
      s.dataAddr 0 + (x.val + 1) ≤ s.cfg.memBytes) ∨
    (execLdm x s = raise (.boundsError (max (s.dataAddr 0) s.cfg.memBytes)) s ∧
      s.cfg.memBytes < s.dataAddr 0 + (x.val + 1)) := by
  rcases readBytes_cases s (s.dataAddr 0) (x.val + 1) with ⟨h, h'⟩ | ⟨h, -, h'⟩
  · exact .inl ⟨by simp [execLdm, State.loadAtI, h, orRaise], by simpa using h'⟩
  · exact .inr ⟨by simp [execLdm, State.loadAtI, h, orRaise], by simpa using h'⟩

/-- DRW completes, or raises and changes nothing (R171, R176). -/
theorem execDrw_cases (x y : RegIdx) (n : BitVec 4) (s : State) :
    (execDrw x y n s =
        .next (drawSprite x y s (s.mem.getAll (s.dataAddr 0) n.toNat)).notifyDisplay.advance ∧
      (n.toNat = 0 ∨ s.dataAddr 0 + n.toNat ≤ s.cfg.memBytes)) ∨
    (execDrw x y n s = raise (.boundsError (max (s.dataAddr 0) s.cfg.memBytes)) s ∧ 0 < n.toNat ∧
      s.cfg.memBytes < s.dataAddr 0 + n.toNat) := by
  rcases readBytes_cases s (s.dataAddr 0) n.toNat with ⟨h, h'⟩ | ⟨h, h'⟩
  · exact .inl ⟨by simp [execDrw, State.loadAtI, h, orRaise], h'⟩
  · exact .inr ⟨by simp [execDrw, State.loadAtI, h, orRaise], h'⟩

/-- CALL completes, or raises and changes nothing (R103). -/
theorem execCall_cases (nnn : BitVec 12) (s : State) :
    (execCall nnn s = .next ((s.push (s.pc + 2#16)).jump nnn) ∧ s.stack.length < s.cfg.stackDepth) ∨
    (execCall nnn s = raise (.stackOverflow (encode (.call nnn)) s.pc) s ∧
      s.cfg.stackDepth ≤ s.stack.length) := by
  by_cases h : s.cfg.stackDepth ≤ s.stack.length
  · exact .inr ⟨by simp [execCall, h], h⟩
  · exact .inl ⟨by simp [execCall, h], by omega⟩

/-- RET completes, or raises and changes nothing (R101). -/
theorem execRet_cases (s : State) :
    (∃ ws w, s.stack = ws ++ [w] ∧ execRet s = .next { s with stack := ws, pc := w }) ∨
    (s.stack = [] ∧ execRet s = raise (.stackUnderflow (encode .ret) s.pc) s) := by
  rcases List.eq_nil_or_concat' s.stack with h | ⟨ws, w, h⟩
  · exact .inr ⟨h, by simp [execRet, State.pop, h]⟩
  · exact .inl ⟨ws, w, h, by simp [execRet, State.pop, h]⟩

/-- LD_VX_K polls, completes or enters the wait (R194). -/
theorem execLdVxK_cases (x : RegIdx) (s : State) :
    (s.kw.waiting = false ∧ execLdVxK x s = .next { s with kw := KeyWait.entered }) ∨
    (s.kw.waiting = true ∧ (s.kw.completed = none ∨ s.kw.pending = KeySet.empty) ∧
      execLdVxK x s = .next s) ∨
    (∃ k, s.kw.waiting = true ∧ s.kw.completed = some k ∧ s.kw.pending ≠ KeySet.empty ∧
      execLdVxK x s = .next { s.setV x (keyByte k) with kw := KeyWait.idle }.advance) := by
  unfold execLdVxK
  cases hw : s.kw.waiting with
  | false => exact .inl ⟨rfl, by simp⟩
  | true =>
    right
    cases hc : s.kw.completed with
    | none => exact .inl ⟨rfl, .inl rfl, by simp⟩
    | some k =>
      by_cases hp : s.kw.pending = KeySet.empty
      · exact .inl ⟨rfl, .inr hp, by simp [hp]⟩
      · exact .inr ⟨k, rfl, rfl, hp, by simp [hp]⟩

/-- Every instruction answers a next state: no meaning stops. -/
theorem exec_next (i : Instr) (s : State) : ∃ t, exec i s = .next t := by
  cases i
  case ret => rcases execRet_cases s with ⟨ws, w, -, h⟩ | ⟨-, h⟩ <;> exact ⟨_, h⟩
  case call nnn => rcases execCall_cases nnn s with ⟨h, -⟩ | ⟨h, -⟩ <;> exact ⟨_, h⟩
  case drw x y n => rcases execDrw_cases x y n s with ⟨h, -⟩ | ⟨h, -⟩ <;> exact ⟨_, h⟩
  case bcd x => rcases execBcd_cases x s with ⟨h, -⟩ | ⟨h, -⟩ <;> exact ⟨_, h⟩
  case stm x => rcases execStm_cases x s with ⟨h, -⟩ | ⟨h, -⟩ <;> exact ⟨_, h⟩
  case ldm x => rcases execLdm_cases x s with ⟨h, -⟩ | ⟨h, -⟩ <;> exact ⟨_, h⟩
  case ldVxK x =>
    rcases execLdVxK_cases x s with ⟨-, h⟩ | ⟨-, -, h⟩ | ⟨k, -, -, -, h⟩ <;> exact ⟨_, h⟩
  all_goals exact ⟨_, rfl⟩

end Sys2Proof.Machine
end

