-- ==== Sys2Proof/Laws/Effect.lean ====
section
/-! SUPPORT. All that an instruction can do to the state, said once: a proof about every instruction takes
`exec_effect` apart and never unfolds a meaning. -/

namespace Sys2Proof.Machine

/-- The compare and key-test skips. -/
inductive IsSkip : Instr → Prop
  | seImm (x : RegIdx) (nn : Byte) : IsSkip (.seImm x nn)
  | sneImm (x : RegIdx) (nn : Byte) : IsSkip (.sneImm x nn)
  | seReg (x y : RegIdx) : IsSkip (.seReg x y)
  | sneReg (x y : RegIdx) : IsSkip (.sneReg x y)
  | skp (x : RegIdx) : IsSkip (.skp x)
  | sknp (x : RegIdx) : IsSkip (.sknp x)

/-- The instructions that write general registers and the pc, and nothing else. -/
inductive IsRegOp : Instr → Prop
  | ldImm (x : RegIdx) (nn : Byte) : IsRegOp (.ldImm x nn)
  | addImm (x : RegIdx) (nn : Byte) : IsRegOp (.addImm x nn)
  | ldReg (x y : RegIdx) : IsRegOp (.ldReg x y)
  | orReg (x y : RegIdx) : IsRegOp (.orReg x y)
  | andReg (x y : RegIdx) : IsRegOp (.andReg x y)
  | xorReg (x y : RegIdx) : IsRegOp (.xorReg x y)
  | addReg (x y : RegIdx) : IsRegOp (.addReg x y)
  | sub (x y : RegIdx) : IsRegOp (.sub x y)
  | shr (x y : RegIdx) : IsRegOp (.shr x y)
  | subn (x y : RegIdx) : IsRegOp (.subn x y)
  | shl (x y : RegIdx) : IsRegOp (.shl x y)
  | ldVxDt (x : RegIdx) : IsRegOp (.ldVxDt x)
  | ldm (x : RegIdx) : IsRegOp (.ldm x)

/-- What an instruction can turn state `s` into. -/
inductive Effect (s : State) : Instr → State → Prop
  | raised (i : Instr) (e : Fault) (h : exec i s = raise e s) : Effect s i { s with fault := some e }
  | cleared : Effect s .cls { s with fb := Framebuffer.blank, notices := s.notices + 1, pc := s.pc + 2#16 }
  | returned (ws : List Word) (w : Word) (h : s.stack = ws ++ [w]) : Effect s .ret { s with stack := ws, pc := w }
  | jumped (nnn : BitVec 12) : Effect s (.jp nnn) { s with pc := nnn.zeroExtend 16 }
  | called (nnn : BitVec 12) (h : s.stack.length < s.cfg.stackDepth) :
      Effect s (.call nnn) { s with stack := s.stack ++ [s.pc + 2#16], pc := nnn.zeroExtend 16 }
  | skipped (i : Instr) (h : IsSkip i) (c : Bool) : Effect s i (s.skipIf c)
  | indexLoaded (nnn : BitVec 12) : Effect s (.ldI nnn) { s with i := nnn.zeroExtend 16, pc := s.pc + 2#16 }
  | indexAdded (x : RegIdx) :
      Effect s (.addI x) { s with i := s.i + (s.V x).zeroExtend 16, pc := s.pc + 2#16 }
  | randomDrawn (x : RegIdx) (nn : Byte) (v : Vector Byte 16) (h : ∀ r : RegIdx, r ≠ x → v[r] = s.V r) :
      Effect s (.rnd x nn) { s with v := v, draws := s.draws + 1, pc := s.pc + 2#16 }
  | drawn (x y : RegIdx) (n : BitVec 4) (v : Vector Byte 16) (fb : Framebuffer)
      (h : ∀ r : RegIdx, r ≠ VF → v[r] = s.V r) :
      Effect s (.drw x y n) { s with v := v, fb := fb, notices := s.notices + 1, pc := s.pc + 2#16 }
  | timerSet (x : RegIdx) : Effect s (.ldDtVx x) { s with dt := s.V x, pc := s.pc + 2#16 }
  | stored (i : Instr) (hi : (∃ x, i = .bcd x) ∨ ∃ x, i = .stm x) (bs : List Byte)
      (h : s.dataAddr 0 + bs.length ≤ s.cfg.memBytes) :
      Effect s i { s with mem := s.mem.setAll (s.dataAddr 0) bs, pc := s.pc + 2#16 }
  | waitEntered (x : RegIdx) (h : s.kw.waiting = false) : Effect s (.ldVxK x) { s with kw := KeyWait.entered }
  | waitPolled (x : RegIdx) (h : s.kw.waiting = true)
      (hc : s.kw.completed = none ∨ s.kw.pending = KeySet.empty) : Effect s (.ldVxK x) s
  | waitEnded (x : RegIdx) (k : KeyIdx) (h : s.kw.waiting = true) (hc : s.kw.completed = some k)
      (hp : s.kw.pending ≠ KeySet.empty) :
      Effect s (.ldVxK x) { s with v := s.v.set x (keyByte k), kw := KeyWait.idle, pc := s.pc + 2#16 }
  | regsWritten (i : Instr) (hi : IsRegOp i) (v : Vector Byte 16)
      (h : ∀ r : RegIdx, ¬ writesReg i r → v[r] = s.V r) : Effect s i { s with v := v, pc := s.pc + 2#16 }

/-- The registers after one write. -/
theorem getElem_set_other (v : Vector Byte 16) {x r : RegIdx} (b : Byte) (h : r ≠ x) :
    (v.set x b)[r] = v[r] := by
  simp only [Fin.getElem_fin]
  exact Vector.getElem_set_ne x.isLt r.isLt (fun hx => h (Fin.ext hx.symm))

theorem effect_drw (x y : RegIdx) (n : BitVec 4) (s : State) {t : State} (h : exec (.drw x y n) s = .next t) :
    Effect s (.drw x y n) t := by
  rcases execDrw_cases x y n s with ⟨h', -⟩ | ⟨h', -⟩
  · cases h.symm.trans h'
    exact .drawn x y n _ _ (fun r hr => getElem_set_other s.v _ hr)
  · cases h.symm.trans h'
    exact .raised _ _ h'

theorem effect_ldm (x : RegIdx) (s : State) {t : State} (h : exec (.ldm x) s = .next t) :
    Effect s (.ldm x) t := by
  rcases execLdm_cases x s with ⟨h', -⟩ | ⟨h', -⟩
  · cases h.symm.trans h'
    refine .regsWritten _ (.ldm x) _ (fun r hr => ?_)
    have hlt : ¬ r.val ≤ x.val := hr
    simp only [Fin.getElem_fin, getElem_loadRegs]
    rw [dif_neg (by rw [Memory.length_getAll]; omega)]
    rfl
  · cases h.symm.trans h'
    exact .raised _ _ h'

theorem effect_ldVxK (x : RegIdx) (s : State) {t : State} (h : exec (.ldVxK x) s = .next t) :
    Effect s (.ldVxK x) t := by
  rcases execLdVxK_cases x s with ⟨hw, h'⟩ | ⟨hw, hc, h'⟩ | ⟨k, hw, hc, hp, h'⟩
  · cases h.symm.trans h'
    exact .waitEntered x hw
  · cases h.symm.trans h'
    exact .waitPolled x hw hc
  · cases h.symm.trans h'
    exact .waitEnded x k hw hc hp

/-- All that an instruction can do. -/
theorem exec_effect {i : Instr} {s t : State} (h : exec i s = .next t) : Effect s i t := by
  have two : ∀ {x r : RegIdx} (v : Vector Byte 16) (a b : Byte), ¬ (r = x ∨ r = VF) →
      ((v.set VF a).set x b)[r] = v[r] := fun v a b hr => by
    rw [not_or] at hr
    rw [getElem_set_other _ _ hr.1, getElem_set_other _ _ hr.2]
  cases i
  case cls => cases h; exact .cleared
  case ret =>
    rcases execRet_cases s with ⟨ws, w, hs, h'⟩ | ⟨-, h'⟩
    · cases h.symm.trans h'; exact .returned ws w hs
    · cases h.symm.trans h'; exact .raised _ _ h'
  case jp nnn => cases h; exact .jumped nnn
  case call nnn =>
    rcases execCall_cases nnn s with ⟨h', hs⟩ | ⟨h', -⟩
    · cases h.symm.trans h'; exact .called nnn hs
    · cases h.symm.trans h'; exact .raised _ _ h'
  case seImm x nn => cases h; exact .skipped _ (.seImm x nn) _
  case sneImm x nn => cases h; exact .skipped _ (.sneImm x nn) _
  case seReg x y => cases h; exact .skipped _ (.seReg x y) _
  case sneReg x y => cases h; exact .skipped _ (.sneReg x y) _
  case skp x => cases h; exact .skipped _ (.skp x) _
  case sknp x => cases h; exact .skipped _ (.sknp x) _
  case ldI nnn => cases h; exact .indexLoaded nnn
  case addI x => cases h; exact .indexAdded x
  case rnd x nn => cases h; exact .randomDrawn x nn _ (fun r hr => getElem_set_other s.v _ hr)
  case drw x y n => exact effect_drw x y n s h
  case ldDtVx x => cases h; exact .timerSet x
  case bcd x =>
    rcases execBcd_cases x s with ⟨h', hb⟩ | ⟨h', -⟩
    · cases h.symm.trans h'; exact .stored _ (.inl ⟨x, rfl⟩) _ hb
    · cases h.symm.trans h'; exact .raised _ _ h'
  case stm x =>
    rcases execStm_cases x s with ⟨h', hb⟩ | ⟨h', -⟩
    · cases h.symm.trans h'
      exact .stored _ (.inr ⟨x, rfl⟩) _ (by rw [length_regsUpTo]; exact hb)
    · cases h.symm.trans h'; exact .raised _ _ h'
  case ldm x => exact effect_ldm x s h
  case ldVxK x => exact effect_ldVxK x s h
  case ldImm x nn => cases h; exact .regsWritten _ (.ldImm x nn) _ (fun r hr => getElem_set_other s.v _ hr)
  case addImm x nn => cases h; exact .regsWritten _ (.addImm x nn) _ (fun r hr => getElem_set_other s.v _ hr)
  case ldReg x y => cases h; exact .regsWritten _ (.ldReg x y) _ (fun r hr => getElem_set_other s.v _ hr)
  case orReg x y => cases h; exact .regsWritten _ (.orReg x y) _ (fun r hr => getElem_set_other s.v _ hr)
  case andReg x y => cases h; exact .regsWritten _ (.andReg x y) _ (fun r hr => getElem_set_other s.v _ hr)
  case xorReg x y => cases h; exact .regsWritten _ (.xorReg x y) _ (fun r hr => getElem_set_other s.v _ hr)
  case ldVxDt x => cases h; exact .regsWritten _ (.ldVxDt x) _ (fun r hr => getElem_set_other s.v _ hr)
  case addReg x y => cases h; exact .regsWritten _ (.addReg x y) _ (fun r hr => two s.v _ _ hr)
  case sub x y => cases h; exact .regsWritten _ (.sub x y) _ (fun r hr => two s.v _ _ hr)
  case subn x y => cases h; exact .regsWritten _ (.subn x y) _ (fun r hr => two s.v _ _ hr)
  case shr x y =>
    cases h
    exact .regsWritten _ (.shr x y) _ (fun r hr =>
      (two (s.v.set x (s.V y)) _ _ hr).trans (getElem_set_other s.v _ (fun e => hr (.inl e))))
  case shl x y =>
    cases h
    exact .regsWritten _ (.shl x y) _ (fun r hr =>
      (two (s.v.set x (s.V y)) _ _ hr).trans (getElem_set_other s.v _ (fun e => hr (.inl e))))

end Sys2Proof.Machine
end

