-- ==== Sys2Proof/Laws/Encoding.lean ====
section
/-! SUPPORT. Fields and layouts as arithmetic on the opcode's value, the fields of each layout, and the bytes
of a word (30_encoding.md R71, R72, 20_memory.md R51). -/

namespace Sys2Proof

theorem toNat_append {m n : Nat} (a : BitVec m) (b : BitVec n) :
    (a ++ b).toNat = a.toNat * 2 ^ n + b.toNat := by
  rw [BitVec.toNat_append, ← Nat.shiftLeft_add_eq_or_of_lt b.isLt, Nat.shiftLeft_eq]

/-! ### Layouts -/

theorem toNat_layoutNNN (t : BitVec 4) (nnn : BitVec 12) :
    (layoutNNN t nnn).toNat = t.toNat * 4096 + nnn.toNat := toNat_append t nnn

theorem toNat_layoutXNN (t : BitVec 4) (x : RegIdx) (nn : Byte) :
    (layoutXNN t x nn).toNat = t.toNat * 4096 + x.val * 256 + nn.toNat := by
  have h := toNat_append (t ++ BitVec.ofFin (w := 4) x) nn
  rw [toNat_append t] at h
  have e : (layoutXNN t x nn).toNat = (t ++ BitVec.ofFin (w := 4) x ++ nn).toNat := rfl
  have hx : (BitVec.ofFin (w := 4) x).toNat = x.val := rfl
  omega

theorem toNat_layoutXYN (t : BitVec 4) (x y : RegIdx) (n : BitVec 4) :
    (layoutXYN t x y n).toNat = t.toNat * 4096 + x.val * 256 + y.val * 16 + n.toNat := by
  have h := toNat_append (t ++ BitVec.ofFin (w := 4) x ++ BitVec.ofFin (w := 4) y) n
  rw [toNat_append (t ++ BitVec.ofFin (w := 4) x), toNat_append t] at h
  have e : (layoutXYN t x y n).toNat =
    (t ++ BitVec.ofFin (w := 4) x ++ BitVec.ofFin (w := 4) y ++ n).toNat := rfl
  have hx : (BitVec.ofFin (w := 4) x).toNat = x.val := rfl
  have hy : (BitVec.ofFin (w := 4) y).toNat = y.val := rfl
  omega

/-! ### Fields -/

theorem fieldTop_eq (op : Word) : fieldTop op = op.toNat / 4096 := by
  simp only [fieldTop, BitVec.extractLsb'_toNat, Nat.shiftRight_eq_div_pow]
  have := op.isLt
  omega

theorem fieldX_val (op : Word) : (fieldX op).val = op.toNat / 256 % 16 := by
  show (op.extractLsb' 8 4).toNat = _
  simp only [BitVec.extractLsb'_toNat, Nat.shiftRight_eq_div_pow]

theorem fieldY_val (op : Word) : (fieldY op).val = op.toNat / 16 % 16 := by
  show (op.extractLsb' 4 4).toNat = _
  simp only [BitVec.extractLsb'_toNat, Nat.shiftRight_eq_div_pow]

theorem toNat_fieldN (op : Word) : (fieldN op).toNat = op.toNat % 16 := by
  simp only [fieldN, BitVec.extractLsb'_toNat, Nat.shiftRight_zero]

theorem toNat_fieldNN (op : Word) : (fieldNN op).toNat = op.toNat % 256 := by
  simp only [fieldNN, BitVec.extractLsb'_toNat, Nat.shiftRight_zero]

theorem toNat_fieldNNN (op : Word) : (fieldNNN op).toNat = op.toNat % 4096 := by
  simp only [fieldNNN, BitVec.extractLsb'_toNat, Nat.shiftRight_zero]

/-! ### The fields of each layout -/

@[simp] theorem fieldTop_layoutNNN (t : BitVec 4) (nnn : BitVec 12) :
    fieldTop (layoutNNN t nnn) = t.toNat := by
  rw [fieldTop_eq, toNat_layoutNNN]; omega

@[simp] theorem fieldNNN_layoutNNN (t : BitVec 4) (nnn : BitVec 12) :
    fieldNNN (layoutNNN t nnn) = nnn := by
  apply BitVec.eq_of_toNat_eq; rw [toNat_fieldNNN, toNat_layoutNNN]; omega

@[simp] theorem fieldTop_layoutXNN (t : BitVec 4) (x : RegIdx) (nn : Byte) :
    fieldTop (layoutXNN t x nn) = t.toNat := by
  rw [fieldTop_eq, toNat_layoutXNN]; omega

@[simp] theorem fieldX_layoutXNN (t : BitVec 4) (x : RegIdx) (nn : Byte) :
    fieldX (layoutXNN t x nn) = x := by
  apply Fin.ext; rw [fieldX_val, toNat_layoutXNN]; omega

@[simp] theorem fieldNN_layoutXNN (t : BitVec 4) (x : RegIdx) (nn : Byte) :
    fieldNN (layoutXNN t x nn) = nn := by
  apply BitVec.eq_of_toNat_eq; rw [toNat_fieldNN, toNat_layoutXNN]; omega

@[simp] theorem fieldTop_layoutXYN (t : BitVec 4) (x y : RegIdx) (n : BitVec 4) :
    fieldTop (layoutXYN t x y n) = t.toNat := by
  rw [fieldTop_eq, toNat_layoutXYN]; omega

@[simp] theorem fieldX_layoutXYN (t : BitVec 4) (x y : RegIdx) (n : BitVec 4) :
    fieldX (layoutXYN t x y n) = x := by
  apply Fin.ext; rw [fieldX_val, toNat_layoutXYN]; omega

@[simp] theorem fieldY_layoutXYN (t : BitVec 4) (x y : RegIdx) (n : BitVec 4) :
    fieldY (layoutXYN t x y n) = y := by
  apply Fin.ext; rw [fieldY_val, toNat_layoutXYN]; omega

@[simp] theorem fieldN_layoutXYN (t : BitVec 4) (x y : RegIdx) (n : BitVec 4) :
    fieldN (layoutXYN t x y n) = n := by
  apply BitVec.eq_of_toNat_eq; rw [toNat_fieldN, toNat_layoutXYN]; omega

/-- An opcode is the layout of its own fields. -/
theorem layoutNNN_fields (op : Word) (t : BitVec 4) (h : fieldTop op = t.toNat) :
    layoutNNN t (fieldNNN op) = op := by
  apply BitVec.eq_of_toNat_eq
  rw [fieldTop_eq] at h
  rw [toNat_layoutNNN, toNat_fieldNNN]; omega

theorem layoutXNN_fields (op : Word) (t : BitVec 4) (nn : Byte) (h : fieldTop op = t.toNat)
    (hn : fieldNN op = nn) : layoutXNN t (fieldX op) nn = op := by
  apply BitVec.eq_of_toNat_eq
  subst hn
  rw [fieldTop_eq] at h
  rw [toNat_layoutXNN, toNat_fieldNN, fieldX_val]; omega

theorem layoutXYN_fields (op : Word) (t n : BitVec 4) (h : fieldTop op = t.toNat) (hn : fieldN op = n) :
    layoutXYN t (fieldX op) (fieldY op) n = op := by
  apply BitVec.eq_of_toNat_eq
  subst hn
  rw [fieldTop_eq] at h
  rw [toNat_layoutXYN, toNat_fieldN, fieldX_val, fieldY_val]; omega

/-! ### Masks (R73) -/

theorem and_layoutNNN (t m : BitVec 4) (a b : BitVec 12) :
    layoutNNN t a &&& layoutNNN m b = layoutNNN (t &&& m) (a &&& b) := BitVec.and_append

theorem and_layoutXNN (t m : BitVec 4) (x y : RegIdx) (a b : Byte) :
    layoutXNN t x a &&& layoutXNN m y b =
      layoutXNN (t &&& m) (BitVec.ofFin (w := 4) x &&& BitVec.ofFin (w := 4) y).toFin (a &&& b) := by
  have h : (t ++ BitVec.ofFin (w := 4) x ++ a) &&& (m ++ BitVec.ofFin (w := 4) y ++ b) =
      (t &&& m) ++ (BitVec.ofFin (w := 4) x &&& BitVec.ofFin (w := 4) y) ++ (a &&& b) := by
    rw [BitVec.and_append, BitVec.and_append]
  exact h

theorem and_layoutXYN (t m : BitVec 4) (x y x' y' : RegIdx) (a b : BitVec 4) :
    layoutXYN t x y a &&& layoutXYN m x' y' b =
      layoutXYN (t &&& m) (BitVec.ofFin (w := 4) x &&& BitVec.ofFin (w := 4) x').toFin
        (BitVec.ofFin (w := 4) y &&& BitVec.ofFin (w := 4) y').toFin (a &&& b) := by
  have h : (t ++ BitVec.ofFin (w := 4) x ++ BitVec.ofFin (w := 4) y ++ a) &&&
        (m ++ BitVec.ofFin (w := 4) x' ++ BitVec.ofFin (w := 4) y' ++ b) =
      (t &&& m) ++ (BitVec.ofFin (w := 4) x &&& BitVec.ofFin (w := 4) x') ++
        (BitVec.ofFin (w := 4) y &&& BitVec.ofFin (w := 4) y') ++ (a &&& b) := by
    rw [BitVec.and_append, BitVec.and_append, BitVec.and_append]
  exact h

theorem and_allOnes_nibble (t : BitVec 4) : t &&& 0xF#4 = t := by revert t; decide

theorem and_zero_nibble (x : RegIdx) :
    (BitVec.ofFin (w := 4) x &&& BitVec.ofFin (w := 4) 0).toFin = (0 : RegIdx) := by revert x; decide

/-- Mask 0xF000 keeps the top nibble of layout NNN. -/
@[simp] theorem layoutNNN_maskTop (t : BitVec 4) (nnn : BitVec 12) :
    layoutNNN t nnn &&& 0xF000#16 = layoutNNN t 0#12 := by
  have h := and_layoutNNN t 0xF#4 nnn 0#12
  have h1 : layoutNNN 0xF#4 0#12 = 0xF000#16 := by decide
  simpa [h1, and_allOnes_nibble] using h

/-- Mask 0xF000 keeps the top nibble of layout XNN. -/
@[simp] theorem layoutXNN_maskTop (t : BitVec 4) (x : RegIdx) (nn : Byte) :
    layoutXNN t x nn &&& 0xF000#16 = layoutXNN t 0 0#8 := by
  have h := and_layoutXNN t 0xF#4 x 0 nn 0#8
  have h1 : layoutXNN 0xF#4 0 0#8 = 0xF000#16 := by decide
  rw [h1, and_allOnes_nibble, and_zero_nibble] at h
  simpa using h

/-- Mask 0xF0FF drops x from layout XNN. -/
@[simp] theorem layoutXNN_maskX (t : BitVec 4) (x : RegIdx) (nn : Byte) :
    layoutXNN t x nn &&& 0xF0FF#16 = layoutXNN t 0 nn := by
  have h := and_layoutXNN t 0xF#4 x 0 nn 0xFF#8
  have h1 : layoutXNN 0xF#4 0 0xFF#8 = 0xF0FF#16 := by decide
  have h2 : nn &&& 0xFF#8 = nn := BitVec.and_allOnes
  rw [h1, and_allOnes_nibble, and_zero_nibble, h2] at h
  exact h

/-- Mask 0xF00F drops x and y from layout XYN. -/
@[simp] theorem layoutXYN_maskXY (t : BitVec 4) (x y : RegIdx) (n : BitVec 4) :
    layoutXYN t x y n &&& 0xF00F#16 = layoutXYN t 0 0 n := by
  have h := and_layoutXYN t 0xF#4 x y 0 0 n 0xF#4
  have h1 : layoutXYN 0xF#4 0 0 0xF#4 = 0xF00F#16 := by decide
  rw [h1, and_allOnes_nibble, and_allOnes_nibble, and_zero_nibble, and_zero_nibble] at h
  exact h

/-- Mask 0xF000 keeps the top nibble of layout XYN. -/
@[simp] theorem layoutXYN_maskTop (t : BitVec 4) (x y : RegIdx) (n : BitVec 4) :
    layoutXYN t x y n &&& 0xF000#16 = layoutXYN t 0 0 0#4 := by
  have h := and_layoutXYN t 0xF#4 x y 0 0 n 0#4
  have h1 : layoutXYN 0xF#4 0 0 0#4 = 0xF000#16 := by decide
  rw [h1, and_allOnes_nibble, and_zero_nibble, and_zero_nibble] at h
  simpa using h

/-! ### What a mask lets through of any opcode -/

@[simp] theorem fieldTop_maskTop (op : Word) : fieldTop (op &&& 0xF000#16) = fieldTop op := by
  have h : (0xF000#16).extractLsb' 12 4 = 0xF#4 := by decide
  simp only [fieldTop, BitVec.extractLsb'_and, h, and_allOnes_nibble]

@[simp] theorem fieldTop_maskXY (op : Word) : fieldTop (op &&& 0xF00F#16) = fieldTop op := by
  have h : (0xF00F#16).extractLsb' 12 4 = 0xF#4 := by decide
  simp only [fieldTop, BitVec.extractLsb'_and, h, and_allOnes_nibble]

@[simp] theorem fieldN_maskXY (op : Word) : fieldN (op &&& 0xF00F#16) = fieldN op := by
  have h : (0xF00F#16).extractLsb' 0 4 = 0xF#4 := by decide
  simp only [fieldN, BitVec.extractLsb'_and, h, and_allOnes_nibble]

@[simp] theorem fieldTop_maskX (op : Word) : fieldTop (op &&& 0xF0FF#16) = fieldTop op := by
  have h : (0xF0FF#16).extractLsb' 12 4 = 0xF#4 := by decide
  simp only [fieldTop, BitVec.extractLsb'_and, h, and_allOnes_nibble]

@[simp] theorem fieldNN_maskX (op : Word) : fieldNN (op &&& 0xF0FF#16) = fieldNN op := by
  have h : (0xF0FF#16).extractLsb' 0 8 = BitVec.allOnes 8 := by decide
  simp only [fieldNN, BitVec.extractLsb'_and, h, BitVec.and_allOnes]

/-! ### Bytes of a word -/

theorem toNat_wordOfBytes (hi lo : Byte) : (wordOfBytes hi lo).toNat = hi.toNat * 256 + lo.toNat :=
  toNat_append hi lo

@[simp] theorem wordOfBytes_bytes (op : Word) :
    wordOfBytes (op.extractLsb' 8 8) (op.extractLsb' 0 8) = op := by
  apply BitVec.eq_of_toNat_eq
  rw [toNat_wordOfBytes]
  simp only [BitVec.extractLsb'_toNat, Nat.shiftRight_eq_div_pow]
  have := op.isLt
  omega

/-- Decoding the bytes of a word decodes the word. -/
@[simp] theorem decodeBytes_bytesOfWord (op : Word) (rest : List Byte) :
    decodeBytes (bytesOfWord op ++ rest) = (decode op, rest) := by
  simp [bytesOfWord, decodeBytes]

/-- The bits of an opcode, from its two bytes (R51). -/
theorem getLsbD_wordOfBytes (hi lo : Byte) (j : Nat) :
    (wordOfBytes hi lo).getLsbD j = if j < 8 then lo.getLsbD j else hi.getLsbD (j - 8) := by
  unfold wordOfBytes
  exact BitVec.getLsbD_append

end Sys2Proof
end

