-- ==== Sys2Proof/Laws/Flags.lean ====
section
/-! SUPPORT. What the arithmetic, flag, key and pc computations are as natural numbers. -/

namespace Sys2Proof.Machine

theorem sumByte_toNat (a b : Byte) : (sumByte a b).toNat = (a.toNat + b.toNat) % 256 := by
  simp [sumByte, exactSum]

theorem carryFlag_eq (a b : Byte) : carryFlag a b = if a.toNat + b.toNat > 255 then 1#8 else 0#8 := by
  simp [carryFlag, flagByte, exactSum]

theorem diffByte_toNat (a b : Byte) : (diffByte a b).toNat = (a.toNat + 256 - b.toNat) % 256 := by
  have := a.isLt
  have := b.isLt
  simp only [diffByte, exactDiff, BitVec.toNat_ofInt]
  omega

theorem noBorrowFlag_eq (a b : Byte) : noBorrowFlag a b = if b.toNat ≤ a.toNat then 1#8 else 0#8 := by
  by_cases h : b.toNat ≤ a.toNat
  · have h' : ¬ (exactDiff a b < 0) := by unfold exactDiff; omega
    simp [noBorrowFlag, flagByte, h, h']
  · have h' : exactDiff a b < 0 := by unfold exactDiff; omega
    simp [noBorrowFlag, flagByte, h, h']

theorem keyOf_val (b : Byte) : (keyOf b).val = b.toNat % 16 := by
  revert b; decide

theorem keyByte_toNat (k : KeyIdx) : (keyByte k).toNat = k.val := by
  revert k; decide

theorem advance_pc_toNat (s : State) : s.advance.pc.toNat = (s.pc.toNat + 2) % 65536 := by
  simp [BitVec.toNat_add]

theorem skipIf_pc_toNat (s : State) (c : Bool) :
    (s.skipIf c).pc.toNat = (s.pc.toNat + if c = true then 4 else 2) % 65536 := by
  cases c <;> simp [BitVec.toNat_add]

theorem jump_pc_toNat (s : State) (nnn : BitVec 12) : (s.jump nnn).pc.toNat = nnn.toNat := by
  have := nnn.isLt
  simp only [State.jump_pc, BitVec.toNat_setWidth]
  omega

end Sys2Proof.Machine
end

