-- ==== Sys2Proof/Laws/Load.lean ====
section
/-! SUPPORT. What loading a program does, with the program origin as the number 512 (70_reset_and_hazards.md R252). -/

namespace Sys2Proof.Machine

/-- Either admitted memory has room for a program (R4). -/
theorem memBytes_bounds (c : Config) : 4095 ≤ c.memBytes ∧ c.memBytes ≤ 4096 := by
  unfold Config.memBytes MemSize.bytes
  split <;> decide

theorem imageCapacity_eq (c : Config) : c.imageCapacity = c.memBytes - 512 := rfl

theorem fits_iff (c : Config) (rom : List Byte) : Image.fits c rom = true ↔ 512 + rom.length ≤ c.memBytes := by
  have h := memBytes_bounds c
  unfold Image.fits
  rw [decide_eq_true_iff, imageCapacity_eq]
  omega

theorem loadImage_mem (rom : List Byte) (s : State) : (loadImage rom s).mem = s.mem.setAll 512 rom := rfl

/-- All that `reset_and_load` can answer. -/
theorem resetAndLoad_cases (rom : List Byte) (s : State) :
    (512 + rom.length ≤ s.cfg.memBytes ∧ resetAndLoad rom s =
      .next { State.powerOn s.cfg with mem := Memory.setAll [] 512 rom, draws := s.draws, notices := s.notices }) ∨
    (s.cfg.memBytes < 512 + rom.length ∧
      resetAndLoad rom s = .refused (.imageTooLong rom.length s.cfg.imageCapacity)) := by
  by_cases h : Image.fits s.cfg rom = true
  · exact .inl ⟨(fits_iff s.cfg rom).mp h, by rw [resetAndLoad, if_pos h]; rfl⟩
  · refine .inr ⟨?_, by rw [resetAndLoad, if_neg h]⟩
    rw [fits_iff] at h
    omega

end Sys2Proof.Machine
end

