-- ==== Sys2Proof/Laws/PerInstr.lean ====
section
/-! SUPPORT. Laws made per instruction: one lemma per constructor of Instr. -/

/-- The instruction's encoding selects the row of R73's table that bears its name. -/
def Sys2Proof.Laws.EncodesTableRow.Statement (i : Sys2Proof.Instr) : Prop :=
  ∃ r ∈ Sys2Proof.opcodeTable, r.selects (Sys2Proof.encode i) = true ∧ r.mnemonic = i.mnemonic

namespace Sys2Proof.Laws.EncodesTableRow

/-- Exhibit the row by its mask and pattern. -/
theorem of_row {i : Instr} (name : String) (m p : Word) (hm : OpcodeRow.mk name m p ∈ opcodeTable)
    (h : encode i &&& m = p) (hn : name = i.mnemonic) : Statement i :=
  ⟨_, hm, by simp [OpcodeRow.selects, h], hn⟩

theorem cls : Statement .cls :=
  of_row "CLS" 0xFFFF#16 0x00E0#16 (by decide) (by decide) rfl

theorem ret : Statement .ret :=
  of_row "RET" 0xFFFF#16 0x00EE#16 (by decide) (by decide) rfl

theorem jp (nnn : BitVec 12) : Statement (.jp nnn) :=
  of_row "JP" 0xF000#16 0x1000#16 (by decide) (by simp only [encode, layoutNNN_maskTop]; decide) rfl

theorem call (nnn : BitVec 12) : Statement (.call nnn) :=
  of_row "CALL" 0xF000#16 0x2000#16 (by decide) (by simp only [encode, layoutNNN_maskTop]; decide) rfl

theorem seImm (x : RegIdx) (nn : Byte) : Statement (.seImm x nn) :=
  of_row "SE_IMM" 0xF000#16 0x3000#16 (by decide) (by simp only [encode, layoutXNN_maskTop]; decide) rfl

theorem sneImm (x : RegIdx) (nn : Byte) : Statement (.sneImm x nn) :=
  of_row "SNE_IMM" 0xF000#16 0x4000#16 (by decide) (by simp only [encode, layoutXNN_maskTop]; decide) rfl

theorem seReg (x y : RegIdx) : Statement (.seReg x y) :=
  of_row "SE_REG" 0xF00F#16 0x5000#16 (by decide) (by simp only [encode, layoutXYN_maskXY]; decide) rfl

theorem ldImm (x : RegIdx) (nn : Byte) : Statement (.ldImm x nn) :=
  of_row "LD_IMM" 0xF000#16 0x6000#16 (by decide) (by simp only [encode, layoutXNN_maskTop]; decide) rfl

theorem addImm (x : RegIdx) (nn : Byte) : Statement (.addImm x nn) :=
  of_row "ADD_IMM" 0xF000#16 0x7000#16 (by decide) (by simp only [encode, layoutXNN_maskTop]; decide) rfl

theorem ldReg (x y : RegIdx) : Statement (.ldReg x y) :=
  of_row "LD_REG" 0xF00F#16 0x8000#16 (by decide) (by simp only [encode, layoutXYN_maskXY]; decide) rfl

theorem orReg (x y : RegIdx) : Statement (.orReg x y) :=
  of_row "OR" 0xF00F#16 0x8001#16 (by decide) (by simp only [encode, layoutXYN_maskXY]; decide) rfl

theorem andReg (x y : RegIdx) : Statement (.andReg x y) :=
  of_row "AND" 0xF00F#16 0x8002#16 (by decide) (by simp only [encode, layoutXYN_maskXY]; decide) rfl

theorem xorReg (x y : RegIdx) : Statement (.xorReg x y) :=
  of_row "XOR" 0xF00F#16 0x8003#16 (by decide) (by simp only [encode, layoutXYN_maskXY]; decide) rfl

theorem addReg (x y : RegIdx) : Statement (.addReg x y) :=
  of_row "ADD_REG" 0xF00F#16 0x8004#16 (by decide) (by simp only [encode, layoutXYN_maskXY]; decide) rfl

theorem sub (x y : RegIdx) : Statement (.sub x y) :=
  of_row "SUB" 0xF00F#16 0x8005#16 (by decide) (by simp only [encode, layoutXYN_maskXY]; decide) rfl

theorem shr (x y : RegIdx) : Statement (.shr x y) :=
  of_row "SHR" 0xF00F#16 0x8006#16 (by decide) (by simp only [encode, layoutXYN_maskXY]; decide) rfl

theorem subn (x y : RegIdx) : Statement (.subn x y) :=
  of_row "SUBN" 0xF00F#16 0x8007#16 (by decide) (by simp only [encode, layoutXYN_maskXY]; decide) rfl

theorem shl (x y : RegIdx) : Statement (.shl x y) :=
  of_row "SHL" 0xF00F#16 0x800E#16 (by decide) (by simp only [encode, layoutXYN_maskXY]; decide) rfl

theorem sneReg (x y : RegIdx) : Statement (.sneReg x y) :=
  of_row "SNE_REG" 0xF00F#16 0x9000#16 (by decide) (by simp only [encode, layoutXYN_maskXY]; decide) rfl

theorem ldI (nnn : BitVec 12) : Statement (.ldI nnn) :=
  of_row "LD_I" 0xF000#16 0xA000#16 (by decide) (by simp only [encode, layoutNNN_maskTop]; decide) rfl

theorem rnd (x : RegIdx) (nn : Byte) : Statement (.rnd x nn) :=
  of_row "RND" 0xF000#16 0xC000#16 (by decide) (by simp only [encode, layoutXNN_maskTop]; decide) rfl

theorem drw (x y : RegIdx) (n : BitVec 4) : Statement (.drw x y n) :=
  of_row "DRW" 0xF000#16 0xD000#16 (by decide) (by simp only [encode, layoutXYN_maskTop]; decide) rfl

theorem skp (x : RegIdx) : Statement (.skp x) :=
  of_row "SKP" 0xF0FF#16 0xE09E#16 (by decide) (by simp only [encode, layoutXNN_maskX]; decide) rfl

theorem sknp (x : RegIdx) : Statement (.sknp x) :=
  of_row "SKNP" 0xF0FF#16 0xE0A1#16 (by decide) (by simp only [encode, layoutXNN_maskX]; decide) rfl

theorem ldVxDt (x : RegIdx) : Statement (.ldVxDt x) :=
  of_row "LD_VX_DT" 0xF0FF#16 0xF007#16 (by decide) (by simp only [encode, layoutXNN_maskX]; decide) rfl

theorem ldVxK (x : RegIdx) : Statement (.ldVxK x) :=
  of_row "LD_VX_K" 0xF0FF#16 0xF00A#16 (by decide) (by simp only [encode, layoutXNN_maskX]; decide) rfl

theorem ldDtVx (x : RegIdx) : Statement (.ldDtVx x) :=
  of_row "LD_DT_VX" 0xF0FF#16 0xF015#16 (by decide) (by simp only [encode, layoutXNN_maskX]; decide) rfl

theorem addI (x : RegIdx) : Statement (.addI x) :=
  of_row "ADD_I" 0xF0FF#16 0xF01E#16 (by decide) (by simp only [encode, layoutXNN_maskX]; decide) rfl

theorem bcd (x : RegIdx) : Statement (.bcd x) :=
  of_row "BCD" 0xF0FF#16 0xF033#16 (by decide) (by simp only [encode, layoutXNN_maskX]; decide) rfl

theorem stm (x : RegIdx) : Statement (.stm x) :=
  of_row "STM" 0xF0FF#16 0xF055#16 (by decide) (by simp only [encode, layoutXNN_maskX]; decide) rfl

theorem ldm (x : RegIdx) : Statement (.ldm x) :=
  of_row "LDM" 0xF0FF#16 0xF065#16 (by decide) (by simp only [encode, layoutXNN_maskX]; decide) rfl

end Sys2Proof.Laws.EncodesTableRow
end

