-- ==== Sys2Proof/Laws/Screen.lean ====
section
/-! SUPPORT. What drawing does to the framebuffer: it inverts the pixels in a list without repeats
(43_display.md R171, R173, R174). -/

namespace Sys2Proof.Machine

/-! ### One pixel -/

@[simp] theorem Framebuffer.pixel_blank (r : Fin 32) (c : Fin 64) :
    Framebuffer.blank.pixel r c = false := by
  simp [Framebuffer.pixel, Framebuffer.blank]

/-- Inverting a pixel changes that pixel only. -/
theorem Framebuffer.pixel_flip (fb : Framebuffer) (r r' : Fin 32) (c c' : Fin 64) :
    (fb.flip r c).pixel r' c' = (fb.pixel r' c' ^^ decide (r' = r ∧ c' = c)) := by
  simp only [Framebuffer.pixel, Framebuffer.flip, Fin.getElem_fin, Vector.getElem_set]
  by_cases hr : r = r'
  · subst hr
    have hc : (decide (63 - c'.val < 64) && (!decide (63 - c'.val < 63 - c.val) &&
        (1#64).getLsbD (63 - c'.val - (63 - c.val)))) = decide (c' = c) := by
      by_cases h : c' = c
      · subst h; simp; omega
      · have : c'.val ≠ c.val := fun e => h (Fin.ext e)
        simp only [h, decide_false]
        by_cases hlt : 63 - c'.val < 63 - c.val
        · simp [hlt]
        · have h0 : 63 - c'.val - (63 - c.val) ≠ 0 := by omega
          simp [BitVec.getLsbD_one, h0]
    simp only [if_true, BitVec.getLsbD_xor, BitVec.getLsbD_shiftLeft, true_and]
    rw [← hc]
    simp [Bool.and_assoc]
  · have hv : ¬ r.val = r'.val := fun e => hr (Fin.ext e)
    have hr' : ¬ r' = r := fun e => hr e.symm
    simp [hv, hr']

/-- Equal pixels everywhere make equal framebuffers. -/
theorem Framebuffer.ext_pixel {fb fb' : Framebuffer} (h : ∀ r c, fb.pixel r c = fb'.pixel r c) : fb = fb' := by
  apply Vector.ext
  intro r hr
  apply BitVec.eq_of_getLsbD_eq
  intro j hj
  have := h ⟨r, hr⟩ ⟨63 - j, by omega⟩
  have e : 63 - (63 - j) = j := by omega
  simpa [Framebuffer.pixel, e] using this

/-! ### Where a pixel lands -/

theorem place_clip {cx cy : Nat} {r : Fin 32} {c : Fin 64} :
    place .clip cx cy = some (r, c) ↔ cx = c.val ∧ cy = r.val := by
  simp only [place]
  constructor
  · intro h
    split at h
    · simp only [Option.some.injEq, Prod.mk.injEq] at h
      exact ⟨congrArg Fin.val h.2, congrArg Fin.val h.1⟩
    · cases h
  · rintro ⟨rfl, rfl⟩
    rw [dif_pos ⟨r.isLt, c.isLt⟩]

theorem place_wrap {cx cy : Nat} {r : Fin 32} {c : Fin 64} :
    place .wrap cx cy = some (r, c) ↔ cx % 64 = c.val ∧ cy % 32 = r.val := by
  simp only [place, Option.some.injEq, Prod.mk.injEq, Fin.ext_iff, Fin.val_ofNat]
  exact And.comm

/-- Under either policy two sprite pixels that land on one framebuffer pixel are the same sprite pixel: a
sprite is 8 columns by at most 32 rows (R173). -/
theorem place_inj {p : EdgePolicy} {x0 y0 c₁ c₂ r₁ r₂ : Nat} {q : Fin 32 × Fin 64}
    (h₁ : place p (x0 + c₁) (y0 + r₁) = some q) (h₂ : place p (x0 + c₂) (y0 + r₂) = some q)
    (hc₁ : c₁ < 8) (hc₂ : c₂ < 8) (hr₁ : r₁ < 32) (hr₂ : r₂ < 32) : c₁ = c₂ ∧ r₁ = r₂ := by
  obtain ⟨r, c⟩ := q
  cases p with
  | clip => rw [place_clip] at h₁ h₂; omega
  | wrap => rw [place_wrap] at h₁ h₂; omega

/-! ### Drawing as inverting a list of pixels -/

/-- Invert one pixel and note a collision. -/
def Canvas.invert (c : Canvas) (q : Fin 32 × Fin 64) : Canvas :=
  { fb := c.fb.flip q.1 q.2, hit := c.hit || c.fb.pixel q.1 q.2 }

/-- The pixels that the bits of one sprite row land on. -/
def rowTargets (p : EdgePolicy) (x0 cy : Nat) (b : Byte) : List (Fin 32 × Fin 64) :=
  (List.range 8).filterMap (fun col => if spriteBit b col then place p (x0 + col) cy else none)

/-- The pixels that the bits of a sprite land on. -/
def spriteTargets (p : EdgePolicy) (x0 : Nat) : Nat → List Byte → List (Fin 32 × Fin 64)
  | _, [] => []
  | cy, b :: bs => rowTargets p x0 cy b ++ spriteTargets p x0 (cy + 1) bs

theorem drawRow_eq (p : EdgePolicy) (x0 cy : Nat) (b : Byte) (c : Canvas) :
    drawRow p x0 cy b c = (rowTargets p x0 cy b).foldl Canvas.invert c := by
  simp only [drawRow, rowTargets, List.foldl_filterMap]
  congr 1
  funext c col
  by_cases h : spriteBit b col
  · simp only [h, if_true, plot]
    cases place p (x0 + col) cy <;> rfl
  · simp [h]

theorem drawRows_eq (p : EdgePolicy) (x0 cy : Nat) (bs : List Byte) (c : Canvas) :
    drawRows p x0 cy bs c = (spriteTargets p x0 cy bs).foldl Canvas.invert c := by
  induction bs generalizing cy c with
  | nil => rfl
  | cons b bs ih => simp [drawRows, spriteTargets, ih, drawRow_eq, List.foldl_append]

theorem mem_rowTargets {p : EdgePolicy} {x0 cy : Nat} {b : Byte} {q : Fin 32 × Fin 64} :
    q ∈ rowTargets p x0 cy b ↔ ∃ col < 8, spriteBit b col = true ∧ place p (x0 + col) cy = some q := by
  simp only [rowTargets, List.mem_filterMap, List.mem_range]
  constructor
  · rintro ⟨col, hc, h⟩
    by_cases hb : spriteBit b col
    · exact ⟨col, hc, hb, by simpa [hb] using h⟩
    · simp [hb] at h
  · rintro ⟨col, hc, hb, h⟩
    exact ⟨col, hc, by simp [hb, h]⟩

theorem mem_spriteTargets {p : EdgePolicy} {x0 cy : Nat} {bs : List Byte} {q : Fin 32 × Fin 64} :
    q ∈ spriteTargets p x0 cy bs ↔ ∃ (row : Nat) (h : row < bs.length) (col : Nat), col < 8 ∧
      spriteBit bs[row] col = true ∧ place p (x0 + col) (cy + row) = some q := by
  induction bs generalizing cy with
  | nil => simp [spriteTargets]
  | cons b bs ih =>
    simp only [spriteTargets, List.mem_append, mem_rowTargets, ih]
    constructor
    · rintro (⟨col, hc, hb, h⟩ | ⟨row, hr, col, hc, hb, h⟩)
      · exact ⟨0, by simp, col, hc, hb, h⟩
      · refine ⟨row + 1, by simpa using hr, col, hc, hb, ?_⟩
        rw [← h]; congr 1; omega
    · rintro ⟨row, hr, col, hc, hb, h⟩
      cases row with
      | zero => exact .inl ⟨col, hc, hb, h⟩
      | succ row =>
        refine .inr ⟨row, by simpa using hr, col, hc, hb, ?_⟩
        rw [← h]; congr 1; omega

theorem nodup_spriteTargets (p : EdgePolicy) (x0 cy : Nat) (bs : List Byte) (hb : bs.length ≤ 32) :
    (spriteTargets p x0 cy bs).Nodup := by
  induction bs generalizing cy with
  | nil => simp [spriteTargets]
  | cons b bs ih =>
    simp only [List.length_cons] at hb
    refine List.nodup_append.mpr ⟨?_, ih (cy + 1) (by omega), ?_⟩
    · have hp : (List.range 8).Pairwise (fun a b => a < 8 ∧ b < 8 ∧ a ≠ b) := by decide
      refine List.Pairwise.filterMap _ ?_ hp
      intro c₁ c₂ ⟨h₁, h₂, hne⟩ q₁ hq₁ q₂ hq₂ heq
      subst heq
      split at hq₁
      · split at hq₂
        · exact hne (place_inj (y0 := cy) (r₁ := 0) (r₂ := 0) hq₁ hq₂ h₁ h₂ (by omega) (by omega)).1
        · cases hq₂
      · cases hq₁
    · rintro q hq q' hq' rfl
      obtain ⟨c₁, hc₁, -, h₁⟩ := mem_rowTargets.mp hq
      obtain ⟨row, hr, c₂, hc₂, -, h₂⟩ := mem_spriteTargets.mp hq'
      rw [show cy + 1 + row = cy + (row + 1) by omega] at h₂
      have := (place_inj (r₁ := 0) h₁ h₂ hc₁ hc₂ (by omega) (by omega)).2
      omega

/-- Inverting pixels without repeats: each is inverted once, and a collision is one that was on. -/
theorem foldl_invert (qs : List (Fin 32 × Fin 64)) (hq : qs.Nodup) (c : Canvas) :
    (∀ r k, (qs.foldl Canvas.invert c).fb.pixel r k = (c.fb.pixel r k ^^ decide ((r, k) ∈ qs))) ∧
    ((qs.foldl Canvas.invert c).hit = true ↔ c.hit = true ∨ ∃ q ∈ qs, c.fb.pixel q.1 q.2 = true) := by
  induction qs generalizing c with
  | nil => simp
  | cons q qs ih =>
    obtain ⟨hnot, hq⟩ := List.nodup_cons.mp hq
    obtain ⟨ih₁, ih₂⟩ := ih hq (c.invert q)
    refine ⟨fun r k => ?_, ?_⟩
    · rw [List.foldl_cons, ih₁, Canvas.invert, Framebuffer.pixel_flip]
      by_cases h : (r, k) = q
      · subst h; simp [hnot]
      · have h' : ¬ (r = q.1 ∧ k = q.2) := fun ⟨h1, h2⟩ => h (by rw [h1, h2])
        simp [h, h']
    · rw [List.foldl_cons, ih₂]
      have key : ∀ q' ∈ qs, (c.invert q).fb.pixel q'.1 q'.2 = c.fb.pixel q'.1 q'.2 := by
        intro q' hq'
        have h' : ¬ (q'.1 = q.1 ∧ q'.2 = q.2) := by
          rintro ⟨h1, h2⟩
          exact hnot (by rwa [← Prod.ext h1 h2])
        simp [Canvas.invert, Framebuffer.pixel_flip, h']
      simp only [Canvas.invert, Bool.or_eq_true, List.mem_cons, exists_eq_or_imp, or_assoc]
      refine or_congr_right (or_congr_right (exists_congr fun q' => and_congr_right fun hq' => ?_))
      have hk := key q' hq'
      simp only [Canvas.invert] at hk
      rw [hk]

/-- All that drawing a sprite of at most 32 rows does. -/
theorem drawRows_spec (p : EdgePolicy) (x0 cy : Nat) (bs : List Byte) (hb : bs.length ≤ 32) (c : Canvas) :
    (∀ r k, (drawRows p x0 cy bs c).fb.pixel r k =
      (c.fb.pixel r k ^^ decide ((r, k) ∈ spriteTargets p x0 cy bs))) ∧
    ((drawRows p x0 cy bs c).hit = true ↔
      c.hit = true ∨ ∃ q ∈ spriteTargets p x0 cy bs, c.fb.pixel q.1 q.2 = true) := by
  rw [drawRows_eq]
  exact foldl_invert _ (nodup_spriteTargets p x0 cy bs hb) c

end Sys2Proof.Machine
end

