-- ==== Sys2Proof/Laws/Step.lean ====
section
/-! SUPPORT. What a fetch and a step can do. -/

namespace Sys2Proof.Machine

/-- The word at the pc. -/
def wordAtPc (s : State) : Word := wordOfBytes (s.mem.get s.pc.toNat) (s.mem.get (s.pc.toNat + 1))

/-- All that a fetch can answer (R51, R55). -/
theorem fetch_cases (s : State) :
    (s.pc.toNat + 1 < s.cfg.memBytes ∧ fetch s = .ok (wordAtPc s)) ∨
    (s.cfg.memBytes ≤ s.pc.toNat + 1 ∧
      fetch s = .error (.boundsError (max s.pc.toNat s.cfg.memBytes))) := by
  rcases readBytes_cases s s.pc.toNat 2 with ⟨h, h'⟩ | ⟨h, -, h'⟩
  · exact .inl ⟨by omega, by simp [fetch, h, Except.map, Memory.getAll, opcodeOf, wordAtPc]⟩
  · exact .inr ⟨by omega, by simp [fetch, h, Except.map]⟩

theorem fetch_ok {s : State} (h : s.pc.toNat + 1 < s.cfg.memBytes) : fetch s = .ok (wordAtPc s) := by
  rcases fetch_cases s with ⟨-, h'⟩ | ⟨h', -⟩
  · exact h'
  · omega

/-- A fetch reads the pc, memory and the configuration, and nothing else. -/
theorem fetch_congr {s t : State} (hp : t.pc = s.pc) (hm : t.mem = s.mem) (hc : t.cfg = s.cfg) :
    fetch t = fetch s := by
  simp only [fetch, readBytes, hp, hm, hc]

theorem nextInstr_congr {s t : State} (hp : t.pc = s.pc) (hm : t.mem = s.mem) (hc : t.cfg = s.cfg) :
    nextInstr t = nextInstr s := by
  simp only [nextInstr, fetch_congr hp hm hc]

/-- An instruction at the pc is one whose two bytes exist and decode to it. -/
theorem nextInstr_eq_some {s : State} {i : Instr} :
    nextInstr s = some i ↔ s.pc.toNat + 1 < s.cfg.memBytes ∧ decode (wordAtPc s) = .ok i := by
  rcases fetch_cases s with ⟨h, hf⟩ | ⟨h, hf⟩
  · cases hd : decode (wordAtPc s) <;> simp [nextInstr, hf, hd, Decoded.toOption, h]
  · simp only [nextInstr, hf]
    constructor
    · intro h'; cases h'
    · rintro ⟨h', -⟩; omega

/-- With an error latched a step changes nothing (R225). -/
theorem step_faulted {s : State} {e : Fault} (h : s.fault = some e) : step s = .next s := by
  simp [step, h]

/-- A step runs the instruction at the pc (R100). -/
theorem step_run {s : State} {i : Instr} (h : s.fault = none) (hi : nextInstr s = some i) :
    step s = exec i s := by
  obtain ⟨hp, hd⟩ := nextInstr_eq_some.mp hi
  simp [step, h, fetch_ok hp, hd]

/-- All that a step can do (R100, R225, R226). -/
theorem step_cases (s : State) :
    (∃ e, s.fault = some e ∧ step s = .next s) ∨
    (s.fault = none ∧ s.cfg.memBytes ≤ s.pc.toNat + 1 ∧ nextInstr s = none ∧
      step s = raise (.boundsError (max s.pc.toNat s.cfg.memBytes)) s) ∨
    (s.fault = none ∧ s.pc.toNat + 1 < s.cfg.memBytes ∧ nextInstr s = none ∧
      (∃ r, decode (wordAtPc s) = .illegal r) ∧ step s = raise (.decodeError (wordAtPc s) s.pc) s) ∨
    (∃ i, s.fault = none ∧ s.pc.toNat + 1 < s.cfg.memBytes ∧ nextInstr s = some i ∧ step s = exec i s) := by
  cases hf : s.fault with
  | some e => exact .inl ⟨e, rfl, step_faulted hf⟩
  | none =>
    right
    rcases fetch_cases s with ⟨hp, h⟩ | ⟨hp, h⟩
    · right
      cases hd : decode (wordAtPc s) with
      | illegal r =>
        exact .inl ⟨rfl, hp, by simp [nextInstr, h, hd, Decoded.toOption], ⟨r, rfl⟩, by simp [step, hf, h, hd]⟩
      | ok i => exact .inr ⟨i, rfl, hp, nextInstr_eq_some.mpr ⟨hp, hd⟩, by simp [step, hf, h, hd]⟩
    · exact .inl ⟨rfl, hp, by simp [nextInstr, h], by simp [step, hf, h]⟩

/-- Every step answers a next state. -/
theorem step_next (s : State) : ∃ t, step s = .next t := by
  rcases step_cases s with ⟨e, -, h⟩ | ⟨-, -, -, h⟩ | ⟨-, -, -, -, h⟩ | ⟨i, -, -, -, h⟩
  · exact ⟨_, h⟩
  · exact ⟨_, h⟩
  · exact ⟨_, h⟩
  · obtain ⟨t, ht⟩ := exec_next i s
    exact ⟨t, h.trans ht⟩

/-! ### Runs of several steps -/

theorem runSteps_zero (s : State) : runSteps 0 s = .next s := rfl

/-- A run of k + 1 steps is a step and a run of k steps. -/
theorem runSteps_succ {s t : State} (h : step s = .next t) (k : Nat) : runSteps (k + 1) s = runSteps k t := by
  rw [runSteps, h]

/-- Every run answers a next state. -/
theorem runSteps_next (k : Nat) (s : State) : ∃ t, runSteps k s = .next t := by
  induction k generalizing s with
  | zero => exact ⟨s, rfl⟩
  | succ k ih =>
    obtain ⟨t, ht⟩ := step_next s
    obtain ⟨u, hu⟩ := ih t
    exact ⟨u, (runSteps_succ ht k).trans hu⟩

/-- A run of k + 1 steps is a run of k steps and a step. -/
theorem runSteps_last {k : Nat} {s u : State} (h : runSteps (k + 1) s = .next u) :
    ∃ t, runSteps k s = .next t ∧ step t = .next u := by
  induction k generalizing s with
  | zero =>
    obtain ⟨t, ht⟩ := step_next s
    rw [runSteps_succ ht, runSteps_zero] at h
    cases h
    exact ⟨s, rfl, ht⟩
  | succ k ih =>
    obtain ⟨t, ht⟩ := step_next s
    rw [runSteps_succ ht] at h
    obtain ⟨v, hv, hu⟩ := ih h
    exact ⟨v, (runSteps_succ ht k).trans hv, hu⟩

/-! ### Host transactions -/

@[simp] theorem deliver_fault (e : HostEvent) (s : State) : (e.deliver s).fault = s.fault := by cases e <;> rfl
@[simp] theorem deliver_pc (e : HostEvent) (s : State) : (e.deliver s).pc = s.pc := by cases e <;> rfl
@[simp] theorem deliver_mem (e : HostEvent) (s : State) : (e.deliver s).mem = s.mem := by cases e <;> rfl
@[simp] theorem deliver_cfg (e : HostEvent) (s : State) : (e.deliver s).cfg = s.cfg := by cases e <;> rfl
@[simp] theorem deliver_v (e : HostEvent) (s : State) : (e.deliver s).v = s.v := by cases e <;> rfl

/-- An event changes the key latch, the key-wait unit and DT, and nothing else (R200 to R202). -/
theorem deliver_frame (e : HostEvent) (s : State) :
    e.deliver s = { s with keys := (e.deliver s).keys, kw := (e.deliver s).kw, dt := (e.deliver s).dt } := by
  cases e <;> rfl

@[simp] theorem deliverAll_nil (s : State) : deliverAll [] s = s := rfl

@[simp] theorem deliverAll_cons (e : HostEvent) (es : List HostEvent) (s : State) :
    deliverAll (e :: es) s = deliverAll es (e.deliver s) := rfl

/-- Events in any number change the key latch, the key-wait unit and DT, and nothing else. -/
theorem deliverAll_frame (es : List HostEvent) (s : State) :
    deliverAll es s =
      { s with keys := (deliverAll es s).keys, kw := (deliverAll es s).kw, dt := (deliverAll es s).dt } := by
  induction es generalizing s with
  | nil => rfl
  | cons e es ih =>
    have h := ih (e.deliver s)
    rw [deliverAll_cons]
    rw [deliver_frame e s] at h ⊢
    exact h

theorem nextInstr_deliverAll (es : List HostEvent) (s : State) : nextInstr (deliverAll es s) = nextInstr s := by
  rw [deliverAll_frame es s]
  exact nextInstr_congr rfl rfl rfl

end Sys2Proof.Machine
end

