-- ==== Sys2Proof/Tests/Slice0.lean ====
section
/-! SUPPORT. The model's own tests. Words and results are written from spec/30_encoding.md R72 to R76 and from
the vectors of spec/95_test_vectors.md, whose ids stand in the names or docstrings; none is the model's own
answer. At the end one witness for each obligation that has hypotheses. -/

namespace Sys2Proof.Tests

open Sys2Proof Sys2Proof.Machine Host.Outcome

/-! ### Helpers -/

/-- The next state of an answer, if it is one. -/
def nextOf : Result → Option State
  | .next t => some t
  | .fault _ => none
  | .refused _ => none

/-- The reset state with the instruction `op` at 0x200 and the changes `f`. -/
def start (op : Nat) (f : State → State) : State := f (State.reset.withFetchWord 16 op)

/-- One step from there. -/
def after (op : Nat) (f : State → State) : Option State := nextOf (step (start op f))

/-- No change. -/
def as_is (s : State) : State := s

/-- I at `a`, and bytes from there on. -/
def dataAt (a : Nat) (bs : List Byte) (s : State) : State :=
  { s with i := BitVec.ofNat 16 a, mem := s.mem.setAll a bs }

/-- The framebuffer with the listed pixels (row, column) on. -/
def lit (ps : List (Fin 32 × Fin 64)) : Framebuffer := ps.foldl (fun fb p => fb.flip p.1 p.2) Framebuffer.blank

/-- The other edge policy. -/
def wrapping (s : State) : State := { s with cfg := { s.cfg with edgePolicy := .wrap } }

/-- The other memory size. -/
def short (s : State) : State := { s with cfg := { s.cfg with memSize := .short } }

/-- The state after transactions. -/
def afterAll (ts : List Transaction) (s : State) : Option State := nextOf (runTransactions ts s)

/-! ### Well-formedness: each check refuses an ill-formed term -/

theorem test_wf_refuses_no_stack :
    Config.wf { memSize := .full, stackDepth := 0, edgePolicy := .clip } = false := by decide

theorem test_wf_accepts_standard : Config.standard.wf = true := by decide

/-- R252: 3584 bytes with MEM_SIZE 4096, 3583 with 4095. -/
theorem test_wf_image_capacity :
    Config.standard.imageCapacity = 3584 ∧ (short State.reset).cfg.imageCapacity = 3583 := by decide

theorem test_wf_refuses_long_image : Image.fits Config.standard (List.replicate 3585 0#8) = false := by
  simp only [Image.fits, List.length_replicate]; decide

theorem test_wf_accepts_longest_image : Image.fits Config.standard (List.replicate 3584 0#8) = true := by
  simp only [Image.fits, List.length_replicate]; decide

/-- One opcode of each row of R76 selects no row of the table (T-F1 to T-F10). -/
theorem test_wf_refuses_illegal_opcodes :
    Opcode.legal 0x0123#16 = false ∧ Opcode.legal 0x5121#16 = false ∧ Opcode.legal 0x8128#16 = false ∧
    Opcode.legal 0x912F#16 = false ∧ Opcode.legal 0xB200#16 = false ∧ Opcode.legal 0xE19F#16 = false ∧
    Opcode.legal 0xF129#16 = false := by decide

/-- A memory out of order, with a repeat, or with a blank entry is not in the canonical form. -/
theorem test_wf_refuses_memory :
    ¬ Memory.wf [(5, 1#8), (4, 1#8)] ∧ ¬ Memory.wf [(5, 1#8), (5, 2#8)] ∧ ¬ Memory.wf [(5, 0#8)] := by decide

/-- Writing what an unlisted address reads as removes the entry. -/
theorem test_memory_blank_write : Memory.set [(4, 1#8), (5, 2#8)] 4 0#8 = [(5, 2#8)] := by decide

/-! ### Decoding: every constructor, from words written out bit by bit -/

theorem test_decode_control :
    decode 0b0000000011100000#16 = .ok .cls ∧ decode 0b0000000011101110#16 = .ok .ret ∧
    decode 0b0001101010111100#16 = .ok (.jp 0xABC#12) ∧ decode 0b0010101010111100#16 = .ok (.call 0xABC#12) ∧
    decode 0b0011001100101010#16 = .ok (.seImm 3 0x2A#8) ∧ decode 0b0100001100101010#16 = .ok (.sneImm 3 0x2A#8) ∧
    decode 0b0101000100100000#16 = .ok (.seReg 1 2) ∧ decode 0b1001000100100000#16 = .ok (.sneReg 1 2) := by decide

theorem test_decode_load_and_logic :
    decode 0b0110101001111111#16 = .ok (.ldImm 10 0x7F#8) ∧ decode 0b0111000100000011#16 = .ok (.addImm 1 3#8) ∧
    decode 0b1000000100100000#16 = .ok (.ldReg 1 2) ∧ decode 0b1000000100100001#16 = .ok (.orReg 1 2) ∧
    decode 0b1000000100100010#16 = .ok (.andReg 1 2) ∧ decode 0b1000000100100011#16 = .ok (.xorReg 1 2) := by decide

theorem test_decode_arithmetic :
    decode 0b1000000100100100#16 = .ok (.addReg 1 2) ∧ decode 0b1000000100100101#16 = .ok (.sub 1 2) ∧
    decode 0b1000000100100110#16 = .ok (.shr 1 2) ∧ decode 0b1000000100100111#16 = .ok (.subn 1 2) ∧
    decode 0b1000000100101110#16 = .ok (.shl 1 2) ∧ decode 0b1100000100001111#16 = .ok (.rnd 1 0x0F#8) := by decide

theorem test_decode_index_and_display :
    decode 0b1010001011110000#16 = .ok (.ldI 0x2F0#12) ∧ decode 0b1101000000010101#16 = .ok (.drw 0 1 5#4) ∧
    decode 0b1111001000011110#16 = .ok (.addI 2) ∧ decode 0b1111010000110011#16 = .ok (.bcd 4) ∧
    decode 0b1111001001010101#16 = .ok (.stm 2) ∧ decode 0b1111001001100101#16 = .ok (.ldm 2) := by decide

theorem test_decode_keys_and_timer :
    decode 0b1110001010011110#16 = .ok (.skp 2) ∧ decode 0b1110001010100001#16 = .ok (.sknp 2) ∧
    decode 0b1111010100000111#16 = .ok (.ldVxDt 5) ∧ decode 0b1111010100001010#16 = .ok (.ldVxK 5) ∧
    decode 0b1111010100010101#16 = .ok (.ldDtVx 5) := by decide

/-- Each row of R76's illegal space is rejected by name. -/
theorem test_decode_rejects :
    decode 0x0123#16 = .illegal .zeroGroup ∧ decode 0x5121#16 = .illegal .seRegNibble ∧
    decode 0x8128#16 = .illegal .aluNibble ∧ decode 0x812F#16 = .illegal .aluNibble ∧
    decode 0x912F#16 = .illegal .sneRegNibble ∧ decode 0xB200#16 = .illegal .groupB ∧
    decode 0xE19F#16 = .illegal .groupE ∧ decode 0xF118#16 = .illegal .groupF ∧
    decode 0xFFFF#16 = .illegal .groupF := by decide

/-- R51's example: bytes A2 F0, and what is left of the stream; one byte is too few. -/
theorem test_decode_bytes :
    decodeBytes [0xA2#8, 0xF0#8, 0x60#8] = (.ok (.ldI 0x2F0#12), [0x60#8]) ∧
    decodeBytes [0xA2#8] = (.illegal .truncated, [0xA2#8]) := by decide

/-- The opcode table's numbering: the word itself. -/
theorem test_decode_table_word :
    decodeTableWord 16 0x8AF7 = some (.subn 10 15) ∧ decodeTableWord 16 0xB000 = none := by decide

/-! ### One step of each instruction -/

/-- T-D25. -/
theorem test_cls :
    (after 0x00E0 (fun s => { s.setV VF 9#8 with fb := lit [(3, 3)] })).map
      (fun t => (t.fb, t.V VF, t.notices, t.pc)) = some (Framebuffer.blank, 9#8, 1, 0x0202#16) := by decide

/-- T-C6. -/
theorem test_ret :
    (after 0x00EE (fun s => { s with stack := [0x0204#16, 0x0206#16] })).map (fun t => (t.pc, t.stack)) =
      some (0x0206#16, [0x0204#16]) := by decide

/-- T-C7, S9. -/
theorem test_ret_underflow :
    after 0x00EE as_is =
      some { start 0x00EE as_is with fault := some (.stackUnderflow 0x00EE#16 0x0200#16) } := by decide

/-- T-C1. -/
theorem test_jp : (after 0x1ABC as_is).map (fun t => (t.pc, t.stack)) = some (0x0ABC#16, []) := by decide

/-- T-C3. -/
theorem test_call :
    (after 0x2ABC (fun s => s.setV VF 3#8)).map (fun t => (t.pc, t.stack, t.V VF)) =
      some (0x0ABC#16, [0x0202#16], 3#8) := by decide

/-- T-C5: the third call on a stack of two. -/
theorem test_call_overflow :
    let full := fun s : State =>
      { s with cfg := { s.cfg with stackDepth := 2 }, stack := [0x0202#16, 0x0202#16] }
    after 0x2200 full = some { start 0x2200 full with fault := some (.stackOverflow 0x2200#16 0x0200#16) } := by
  decide

/-- S6. -/
theorem test_se_imm :
    (after 0x3A42 (fun s => s.setV 10 0x42#8)).map State.pc = some 0x0204#16 ∧
    (after 0x3A42 (fun s => s.setV 10 0x43#8)).map State.pc = some 0x0202#16 := by decide

/-- S6. -/
theorem test_sne_imm :
    (after 0x4A42 (fun s => s.setV 10 0x42#8)).map State.pc = some 0x0202#16 ∧
    (after 0x4A42 (fun s => s.setV 10 0x43#8)).map State.pc = some 0x0204#16 := by decide

/-- S6. -/
theorem test_se_reg :
    (after 0x5120 (fun s => (s.setV 1 7#8).setV 2 7#8)).map State.pc = some 0x0204#16 ∧
    (after 0x5120 (fun s => (s.setV 1 7#8).setV 2 8#8)).map State.pc = some 0x0202#16 := by decide

/-- S6. -/
theorem test_sne_reg :
    (after 0x9120 (fun s => (s.setV 1 7#8).setV 2 7#8)).map State.pc = some 0x0202#16 ∧
    (after 0x9120 (fun s => (s.setV 1 7#8).setV 2 8#8)).map State.pc = some 0x0204#16 := by decide

/-- T-A1. -/
theorem test_ld_imm : (after 0x6A7F as_is).map (fun t => (t.V 10, t.pc)) = some (0x7F#8, 0x0202#16) := by decide

/-- T-A2. -/
theorem test_add_imm :
    (after 0x7103 (fun s => s.setV 1 0xFE#8)).map (fun t => (t.V 1, t.V VF)) = some (1#8, 0#8) := by decide

/-- T-A5. -/
theorem test_ld_reg :
    (after 0x8120 (fun s => s.setV 2 0x33#8)).map (fun t => (t.V 1, t.V 2)) = some (0x33#8, 0x33#8) := by decide

/-- T-A6. -/
theorem test_or :
    (after 0x8121 (fun s => ((s.setV 1 0xF0#8).setV 2 0x0F#8).setV VF 1#8)).map (fun t => (t.V 1, t.V VF)) =
      some (0xFF#8, 1#8) := by decide

/-- T-A7. -/
theorem test_and :
    (after 0x8122 (fun s => (s.setV 1 0xF3#8).setV 2 0x3C#8)).map (fun t => t.V 1) = some 0x30#8 := by decide

/-- T-A8. -/
theorem test_xor :
    (after 0x8123 (fun s => (s.setV 1 0xF3#8).setV 2 0x3C#8)).map (fun t => t.V 1) = some 0xCF#8 := by decide

/-- T-A10. -/
theorem test_add_reg :
    (after 0x8124 (fun s => (s.setV 1 0xF0#8).setV 2 0x20#8)).map (fun t => (t.V 1, t.V VF)) =
      some (0x10#8, 1#8) := by decide

/-- T-A15: the sum, not the carry. -/
theorem test_add_reg_to_vf :
    (after 0x8F24 (fun s => (s.setV VF 1#8).setV 2 0xFF#8)).map (fun t => t.V VF) = some 0#8 := by decide

/-- T-A18. -/
theorem test_sub :
    (after 0x8125 (fun s => (s.setV 1 0x10#8).setV 2 0x20#8)).map (fun t => (t.V 1, t.V VF)) =
      some (0xF0#8, 0#8) := by decide

/-- T-A22. -/
theorem test_sub_to_vf :
    (after 0x8F25 (fun s => (s.setV VF 5#8).setV 2 3#8)).map (fun t => t.V VF) = some 2#8 := by decide

/-- T-A28: V[y] is the source. -/
theorem test_shr :
    (after 0x8126 (fun s => (s.setV 1 0xAA#8).setV 2 5#8)).map (fun t => (t.V 1, t.V VF, t.V 2)) =
      some (2#8, 1#8, 5#8) := by decide

/-- T-A33. -/
theorem test_shr_to_vf : (after 0x8F26 (fun s => s.setV 2 0xFF#8)).map (fun t => t.V VF) = some 0#8 := by decide

/-- T-A25. -/
theorem test_subn :
    (after 0x8127 (fun s => (s.setV 1 0x20#8).setV 2 0x10#8)).map (fun t => (t.V 1, t.V VF)) =
      some (0xF0#8, 0#8) := by decide

/-- T-A27. -/
theorem test_subn_to_vf :
    (after 0x8F27 (fun s => (s.setV VF 3#8).setV 2 5#8)).map (fun t => t.V VF) = some 2#8 := by decide

/-- T-A35. -/
theorem test_shl :
    (after 0x812E (fun s => s.setV 2 0x81#8)).map (fun t => (t.V 1, t.V VF)) = some (2#8, 1#8) := by decide

/-- T-A40. -/
theorem test_shl_to_vf : (after 0x8F2E (fun s => s.setV 2 0xFF#8)).map (fun t => t.V VF) = some 2#8 := by decide

/-- T-M2. -/
theorem test_ld_i : (after 0xA000 (fun s => { s with i := 0x1234#16 })).map State.i = some 0#16 := by decide

/-- T-A42 and T-A45, with the free byte given. -/
theorem test_rnd :
    (nextOf (rndWith 0xA7#8 1 0x0F#8 State.reset)).map (fun t => t.V 1) = some 7#8 ∧
    (nextOf (rndWith 0xAB#8 VF 0xF0#8 State.reset)).map (fun t => t.V VF) = some 0xA0#8 := by decide

/-- T-A44: nn = 0 gives 0 whatever is drawn. -/
theorem test_rnd_masked_away : (after 0xC000 (fun s => s.setV 0 0x77#8)).map (fun t => (t.pc, t.draws)) =
    some (0x0202#16, 1) := by decide

/-- T-D2: clipped at the right edge. -/
theorem test_drw_clip :
    (after 0xD012 (fun s => dataAt 0x300 [0xFF#8, 0x81#8] (s.setV 0 0x3C#8))).map
      (fun t => (t.fb, t.V VF, t.notices)) =
      some (lit [(0, 60), (0, 61), (0, 62), (0, 63), (1, 60)], 0#8, 1) := by decide

/-- T-D15: wrapped onto a pixel that is on, which goes off. -/
theorem test_drw_wrap :
    (after 0xD011 (fun s => wrapping { dataAt 0x300 [0x03#8] (s.setV 0 0x39#8) with fb := lit [(0, 0)] })).map
      (fun t => (t.fb, t.V VF)) = some (lit [(0, 63)], 1#8) := by decide

/-- T-K4: only the low nibble selects. -/
theorem test_skp :
    (after 0xE29E (fun s => keyDown 3 (s.setV 2 0xF3#8))).map State.pc = some 0x0204#16 ∧
    (after 0xE29E (fun s => s.setV 2 0xF3#8)).map State.pc = some 0x0202#16 := by decide

/-- T-K7, T-K8. -/
theorem test_sknp :
    (after 0xE2A1 (fun s => keyDown 3 (s.setV 2 0x13#8))).map State.pc = some 0x0202#16 ∧
    (after 0xE2A1 (fun s => keyDown 1 (s.setV 2 0x13#8))).map State.pc = some 0x0204#16 := by decide

/-- T-K9. -/
theorem test_ld_vx_dt :
    (after 0xF507 (fun s => { s with dt := 0x2C#8 })).map (fun t => (t.V 5, t.dt)) = some (0x2C#8, 0x2C#8) := by
  decide

/-- T-K10's first step and first tick. -/
theorem test_ld_dt_vx :
    (after 0xF515 (fun s => s.setV 5 3#8)).map (fun t => (t.dt, (tickDelayTimer t).dt)) = some (3#8, 2#8) := by
  decide

/-- T-W7: two qualifying releases, the latest wins. -/
theorem test_ld_vx_k :
    (afterAll [.step, .event (.keyDown 3), .event (.keyDown 4), .event (.keyUp 4), .event (.keyUp 3), .step]
      (start 0xF50A as_is)).map (fun t => (t.V 5, t.pc, t.kw)) = some (3#8, 0x0202#16, KeyWait.idle) := by decide

/-- T-W3: a key held when the wait begins does not count. -/
theorem test_ld_vx_k_held :
    (afterAll [.event (.keyDown 3), .step, .event (.keyUp 3), .step] (start 0xF50A as_is)).map
      (fun t => (t.V 5, t.pc, t.kw, isKeyDown 3 t)) = some (0#8, 0x0200#16, KeyWait.entered, false) := by decide

/-- T-M6. -/
theorem test_add_i :
    (after 0xF21E (fun s => { s.setV 2 2#8 with i := 0xFFFF#16 })).map State.i = some 1#16 := by decide

/-- T-M7. -/
theorem test_bcd :
    (after 0xF433 (fun s => { s.setV 4 0x9C#8 with i := 0x0300#16 })).map
      (fun t => (t.mem.getAll 0x300 3, t.i)) = some ([1#8, 5#8, 6#8], 0x0300#16) := by decide

/-- T-M11: no partial write, and address 0xFFF does not exist in the short memory. -/
theorem test_bcd_outside :
    let s := start 0xF033 (fun s => short { s.setV 0 0xFF#8 with i := 0x0FFD#16 })
    nextOf (step s) = some { s with fault := some (.boundsError 0x0FFF) } := by decide

/-- T-M12. -/
theorem test_stm :
    (after 0xF255 (fun s => { ((s.setV 0 0x11#8).setV 1 0x22#8).setV 2 0x33#8 with i := 0x0400#16 })).map
      (fun t => (t.mem.getAll 0x400 4, t.i)) = some ([0x11#8, 0x22#8, 0x33#8, 0#8], 0x0400#16) := by decide

/-- T-M15. -/
theorem test_ldm :
    (after 0xF265 (fun s => dataAt 0x400 [0x11#8, 0x22#8, 0x33#8] (s.setV 3 0x77#8))).map
      (fun t => (t.V 0, t.V 1, t.V 2, t.V 3)) = some (0x11#8, 0x22#8, 0x33#8, 0x77#8) := by decide

/-- T-M18: no register is written. -/
theorem test_ldm_outside :
    let s := start 0xF265 (fun s => dataAt 0xFFE [0x11#8, 0x22#8] (s.setV 0 0x99#8))
    nextOf (step s) = some { s with fault := some (.boundsError 0x1000) } := by decide

/-! ### The step -/

/-- T-F1: right after reset, with nothing loaded. -/
theorem test_step_empty :
    nextOf (step State.reset) = some { State.reset with fault := some (.decodeError 0#16 0x0200#16) } := by decide

/-- T-F11, T-F12: the second byte of the fetch is outside memory, by either memory size. -/
theorem test_step_fetch_outside :
    let s := { State.reset with pc := 0x0FFF#16 }
    nextOf (step s) = some { s with fault := some (.boundsError 0x1000) } ∧
    nextOf (step (short s)) = some { short s with fault := some (.boundsError 0x0FFF) } := by decide

/-- T-F10: a second step reports the same error and changes nothing. -/
theorem test_step_faulted :
    afterAll [.step, .step] (start 0xFFFF as_is) = afterAll [.step] (start 0xFFFF as_is) ∧
    (afterAll [.step] (start 0xFFFF as_is)).map (fun t => stepOutput t) =
      some { notify := none, report := some (.decodeError 0xFFFF#16 0x0200#16) } := by decide

/-- The event carries the framebuffer (T-D1, R172). -/
theorem test_step_output :
    (stepOutput (start 0xD011 (fun s => dataAt 0x300 [0xF0#8] ((s.setV 0 2#8).setV 1 1#8)))).notify =
      some (lit [(1, 2), (1, 3), (1, 4), (1, 5)]) := by decide

/-- P5's image: `reset_and_load` copies it to 0x200, whatever the state was. -/
theorem test_reset_and_load :
    (nextOf (resetAndLoad [0xA2#8, 0x06#8] { State.reset with pc := 0x0FFF#16, dt := 7#8, fault := some (.boundsError 4096) })).map
      (fun t => (t.mem.getAll 0x1FF 4, t.pc, t.dt, t.fault)) =
      some ([0#8, 0xA2#8, 0x06#8, 0#8], 0x0200#16, 0#8, none) := by decide

/-- Dispatch and core name the same machine. -/
theorem test_core_reset : Sys2Proof.core.reset = State.reset := rfl

/-! ### Witnesses: a state and operands that meet the hypotheses of each obligation that has some -/

/-- A program that ends at once: 1200 at 0x200, loaded by hand. -/
def selfJump : State := start 0x1200 as_is

/-- A machine that waits at F50A with key 3 pressed and released. -/
def waiting : State :=
  { start 0xF50A as_is with
    kw := { waiting := true, pending := KeySet.empty.insert 3, completed := some 3 } }

/-- A machine that waits at F50A with key 3 pressed. -/
def pressed : State :=
  { start 0xF50A as_is with
    kw := { waiting := true, pending := KeySet.empty.insert 3, completed := none } }

theorem selfJump_inv : Inv selfJump where
  cfgWf := by decide
  memWf := by decide
  memInside := by decide
  stackBound := by decide
  stackEntries := fun _ h => nomatch h
  pcBound := by decide
  idleEmpty := fun _ => ⟨rfl, rfl⟩
  completedIn := fun _ h => nomatch h
  waitingAtKey := fun h => nomatch h

theorem waiting_inv : Inv waiting where
  cfgWf := by decide
  memWf := by decide
  memInside := by decide
  stackBound := by decide
  stackEntries := fun _ h => nomatch h
  pcBound := by decide
  idleEmpty := fun h => nomatch h
  completedIn := fun k h => by cases h; decide
  waitingAtKey := fun _ => ⟨5, by decide⟩

theorem witness_EncodeOfDecode : decode 0x8AF7#16 = .ok (.subn 10 15) := by decide

theorem witness_DecodeAgreesWithOpcodeTable :
    decode 0xFF65#16 = .ok (.ldm 15) ∧ Opcode.legal 0xFF65#16 = true := by decide

theorem witness_OpcodeRowsExclusive :
    ∃ r ∈ opcodeTable, r.selects 0x5FF0#16 = true := ⟨⟨"SE_REG", 0xF00F#16, 0x5000#16⟩, by decide, by decide⟩

/-- The last address at which two bytes exist. -/
theorem witness_FetchIsBigEndian :
    ({ State.reset with pc := 0x0FFE#16 } : State).pc.toNat + 1 < State.reset.cfg.memBytes := by decide

theorem witness_StepRunsDecodedInstruction :
    let s := start 0x1200 as_is
    s.fault = none ∧ s.pc.toNat + 1 < s.cfg.memBytes ∧
    decode (wordOfBytes (s.mem.get s.pc.toNat) (s.mem.get (s.pc.toNat + 1))) = .ok (.jp 0x200#12) := by decide

theorem witness_IllegalOpcodeRaisesDecodeError :
    let s := start 0xFFFF as_is
    s.fault = none ∧ s.pc.toNat + 1 < s.cfg.memBytes ∧
    Opcode.legal (wordOfBytes (s.mem.get s.pc.toNat) (s.mem.get (s.pc.toNat + 1))) = false := by decide

/-- Both clauses, where they meet: the first address without a byte, and the last with one. -/
theorem witness_FetchOutsideMemoryRaises :
    let s := { State.reset with pc := 0x1000#16 }
    let t := { State.reset with pc := 0x0FFF#16 }
    s.fault = none ∧ s.cfg.memBytes ≤ s.pc.toNat ∧ t.fault = none ∧ t.pc.toNat < t.cfg.memBytes ∧
    t.cfg.memBytes ≤ t.pc.toNat + 1 := by decide

theorem witness_FaultedMachineIsFrozen :
    ({ State.reset with fault := some (.boundsError 4096) } : State).fault = some (.boundsError 4096) ∧
    NoReset [.step, .event (.keyDown 3), .event .tick] :=
  ⟨rfl, fun t ht rom h => by subst h; simp at ht⟩

theorem witness_RaisingStepCommitsNothing :
    State.reset.fault = none ∧
    ∃ t, step State.reset = next t ∧ t.fault = some (.decodeError 0#16 0x0200#16) := ⟨rfl, _, rfl, by decide⟩

/-- The longest image, and events around it. -/
theorem witness_TransactionsAnswerNext :
    ∀ rom, Transaction.resetAndLoad rom ∈ [.resetAndLoad (List.replicate 3584 0#8), .step, .event .tick] →
      rom.length ≤ State.reset.cfg.memBytes - 0x200 := by
  intro rom h
  simp only [List.mem_cons, Transaction.resetAndLoad.injEq, reduceCtorEq, List.not_mem_nil, or_false] at h
  rw [h, List.length_replicate]
  decide

/-- Each of the three clauses. -/
theorem witness_ErrorsOfEachInstruction :
    (∃ t e, exec .ret State.reset = next t ∧ t.fault = some e) ∧
    (∃ t e, exec (.call 0#12) { State.reset with stack := List.replicate 16 0#16 } = next t ∧ t.fault = some e) ∧
    (∃ t e, exec (.stm 0) { State.reset with i := 0x1000#16 } = next t ∧ t.fault = some e) :=
  ⟨⟨_, _, rfl, rfl⟩, ⟨_, _, rfl, rfl⟩, ⟨_, _, rfl, rfl⟩⟩

theorem witness_ReexecutionRaisesTheSameError :
    let s := start 0xF033 (fun s => { s with i := 0x0FFE#16 })
    s.fault = none ∧ ∃ t, step s = next t ∧ t.fault = some (.boundsError 0x1000) := ⟨rfl, _, rfl, by decide⟩

/-- Either instruction that notifies, and one that does not. -/
theorem witness_NotifyEventExactlyOnClearAndDraw :
    (∃ t, step (start 0x00E0 as_is) = next t ∧ t.fault = none ∧ nextInstr (start 0x00E0 as_is) = some .cls) ∧
    (∃ t, step (start 0xD010 as_is) = next t ∧ t.fault = none ∧
      nextInstr (start 0xD010 as_is) = some (.drw 0 1 0#4)) ∧
    (∃ t, step selfJump = next t ∧ nextInstr selfJump = some (.jp 0x200#12)) :=
  ⟨⟨_, rfl, by decide, by decide⟩, ⟨_, rfl, by decide, by decide⟩, ⟨_, rfl, by decide⟩⟩

theorem witness_StepKeepsInvariant : Inv waiting ∧ ∃ t, step waiting = next t := ⟨waiting_inv, _, rfl⟩

theorem witness_HostTransactionsKeepInvariant :
    Inv waiting ∧ waiting.cfg.wf = true ∧ ∃ t, resetAndLoad [0x12#8, 0x00#8] waiting = next t :=
  ⟨waiting_inv, by decide, _, rfl⟩

/-- The program F50A, run into its wait and with the key pressed. -/
theorem witness_ReachableStatesAreBounded :
    State.reset.cfg.wf = true ∧
    ∃ s t, resetAndLoad [0xF5#8, 0x0A#8] State.reset = next s ∧
      runTransactions [.step, .event (.keyDown 3), .event (.keyUp 3)] s = next t ∧ t.kw.completed = some 3 :=
  ⟨by decide, _, _, rfl, rfl, by decide⟩

/-- Both clauses, where they meet. -/
theorem witness_ResetAndLoadGivesResetValues :
    (List.replicate 3584 1#8).length ≤ State.reset.cfg.memBytes - 0x200 ∧
    State.reset.cfg.memBytes - 0x200 < (List.replicate 3585 1#8).length := by
  rw [List.length_replicate, List.length_replicate]
  decide

/-- Each piece of state has an instruction that changes it. -/
theorem witness_WritersOfEachPieceOfState :
    (∃ t, exec (.ldI 1#12) State.reset = next t ∧ t.i ≠ State.reset.i) ∧
    (∃ t, exec (.call 1#12) State.reset = next t ∧ t.stack ≠ State.reset.stack) ∧
    (∃ t, exec (.stm 1) (State.reset.setV 1 1#8) = next t ∧ t.mem ≠ (State.reset.setV 1 1#8).mem) ∧
    (∃ t, exec .cls State.reset = next t ∧ t.notices ≠ State.reset.notices) ∧
    (∃ t, exec (.ldDtVx 1) (State.reset.setV 1 1#8) = next t ∧ t.dt ≠ (State.reset.setV 1 1#8).dt) ∧
    (∃ t, exec (.ldVxK 1) State.reset = next t ∧ t.kw ≠ State.reset.kw) ∧
    (∃ t, exec (.rnd 1 0#8) State.reset = next t ∧ t.draws ≠ State.reset.draws) :=
  ⟨⟨_, rfl, by decide⟩, ⟨_, rfl, by decide⟩, ⟨_, rfl, by decide⟩, ⟨_, rfl, by decide⟩, ⟨_, rfl, by decide⟩,
    ⟨_, rfl, by decide⟩, ⟨_, rfl, by decide⟩⟩

theorem witness_WritersOfRegisters :
    (∃ t, exec (.ldm 14) State.reset = next t) ∧ ¬ writesReg (.ldm 14) VF := ⟨⟨_, rfl⟩, by show ¬ (VF ≤ (14 : RegIdx)); decide⟩

/-- One instruction of each clause. -/
theorem witness_PcUpdateOfEachInstruction :
    (∃ t, exec (.call 0xABC#12) State.reset = next t ∧ t.fault = none) ∧
    (∃ t, exec .ret { State.reset with stack := [0x1000#16] } = next t ∧ t.fault = none) ∧
    (∃ t, exec (.ldVxK 5) waiting = next t ∧ t.fault = none ∧ waiting.kw.waiting = true ∧ t.kw.waiting = false) ∧
    (∃ t, exec (.skp 0) State.reset = next t ∧ t.fault = none) ∧
    (∃ t, exec (.ldm 0) State.reset = next t ∧ t.fault = none) :=
  ⟨⟨_, rfl, by decide⟩, ⟨_, rfl, by decide⟩, ⟨_, rfl, by decide, by decide, by decide⟩, ⟨_, rfl, by decide⟩,
    ⟨_, rfl, by decide⟩⟩

/-- Both clauses, where they meet: room for one more, and full. -/
theorem witness_CallPushesReturnAddressOrOverflows :
    let s := { State.reset with stack := List.replicate 15 0#16 }
    let t := { State.reset with stack := List.replicate 16 0#16 }
    s.stack.length < s.cfg.stackDepth ∧ t.cfg.stackDepth ≤ t.stack.length := by decide

theorem witness_ReturnPopsIntoPcOrUnderflows :
    ({ State.reset with stack := [0x0204#16, 0x0206#16] } : State).stack = [0x0204#16] ++ [0x0206#16] ∧
    State.reset.stack = [] := by decide

/-- S5's program: the call at 0x200, then the inner call and its return. -/
theorem witness_NestedCallsReturnToCaller :
    let image := [0x22#8, 0x04#8, 0x12#8, 0x02#8, 0x22#8, 0x08#8, 0x00#8, 0xEE#8, 0x00#8, 0xEE#8]
    let s := { State.reset with mem := State.reset.mem.setAll 0x200 image }
    s.stack.length < s.cfg.stackDepth ∧
    ∃ t u, exec (.call 0x204#12) s = next t ∧ runSteps 2 t = next u ∧
      (∀ j ≤ 2, ∀ m, runSteps j t = next m → t.stack.length ≤ m.stack.length) ∧
      u.stack.length = t.stack.length := by
  refine ⟨by decide, _, _, rfl, rfl, ?_, by decide⟩
  intro j hj m hm
  have h3 : j = 0 ∨ j = 1 ∨ j = 2 := by omega
  rcases h3 with rfl | rfl | rfl <;> cases hm <;> decide

/-- A register whose high nibble does not count. -/
theorem witness_SkipOnKey : ((State.reset.setV 2 0xFF#8).V 2).toNat % 16 = (15 : KeyIdx).val := by decide

theorem witness_EndedProgramStaysEnded :
    Inv selfJump ∧ Ended selfJump ∧ NoReset [.step, .event .tick, .event (.keyDown 0)] :=
  ⟨selfJump_inv, ⟨rfl, 0x200#12, by decide, by decide⟩, fun t ht rom h => by subst h; simp at ht⟩

/-- The destination is VF, and is not. -/
theorem witness_AddWithCarry : (0 : RegIdx) ≠ VF := by decide
theorem witness_SubtractWithNoBorrow : (14 : RegIdx) ≠ VF := by decide
theorem witness_ShiftRight : (0 : RegIdx) ≠ VF ∧ (15 : RegIdx) = VF := by decide
theorem witness_ShiftLeft : (14 : RegIdx) ≠ VF ∧ (15 : RegIdx) = VF := by decide

/-- The last I at which three bytes exist. -/
theorem witness_StoreDecimalDigits :
    let s := { State.reset with i := 0x0FFD#16 }
    Memory.wf s.mem ∧ s.dataAddr 2 < s.cfg.memBytes := by decide

/-- The last I at which sixteen bytes exist. -/
theorem witness_StoreRegisters :
    let s := { State.reset with i := 0x0FF0#16 }
    Memory.wf s.mem ∧ s.dataAddr (15 : RegIdx).val < s.cfg.memBytes := by decide

theorem witness_LoadRegisters :
    ({ State.reset with i := 0x0FF0#16 } : State).dataAddr (15 : RegIdx).val < State.reset.cfg.memBytes := by decide

/-- Each clause at its first address outside memory. -/
theorem witness_DataAccessOutsideMemoryRaises :
    let s := fun a : Word => { State.reset with i := a }
    (s 0x0FFE#16).cfg.memBytes ≤ (s 0x0FFE#16).dataAddr 2 ∧
    (s 0x0FFF#16).cfg.memBytes ≤ (s 0x0FFF#16).dataAddr (1 : RegIdx).val ∧
    1#4 ≠ 0#4 ∧ (s 0x1000#16).cfg.memBytes ≤ (s 0x1000#16).dataAddr ((1#4).toNat - 1) ∧
    15#4 ≠ 0#4 ∧ (s 0x0FF2#16).cfg.memBytes ≤ (s 0x0FF2#16).dataAddr ((15#4).toNat - 1) := by decide

/-- The store writes the two bytes that the next fetch reads. -/
theorem witness_StoreIsSeenByNextFetch :
    let s := { State.reset with i := 0x0202#16 }
    Memory.wf s.mem ∧ s.dataAddr (1 : RegIdx).val < s.cfg.memBytes ∧
    ∃ t, exec (.stm 1) s = next t ∧ t.pc.toNat = s.dataAddr 0 := ⟨by decide, by decide, _, rfl, by decide⟩

/-- The last I at which fifteen bytes exist; a pixel that is covered, and that was on; and one that is not. -/
theorem witness_DrawXorsTheSprite :
    let s := { State.reset with i := 0x0FF1#16, mem := [(0x0FFF, 0x80#8)], fb := lit [(14, 0)] }
    (∀ k < (15#4).toNat, s.dataAddr k < s.cfg.memBytes) ∧
    Covers s 0 0 15#4 14 0 ∧ s.fb.pixel 14 0 = true ∧ ¬ Covers s 0 0 0#4 14 0 := by
  refine ⟨by decide, ⟨14, 0, by decide, by decide, by decide, ?_⟩, by decide, ?_⟩
  · show (_ ∧ _); decide
  · rintro ⟨row, col, h, -⟩
    exact absurd h (by simp)

theorem witness_DrawingTwiceRestoresTheScreen :
    let s := { State.reset with i := 0x0FFF#16, mem := [(0x0FFF, 0x80#8)] }
    (0 : RegIdx) ≠ VF ∧ (1 : RegIdx) ≠ VF ∧ (∀ k < (1#4).toNat, s.dataAddr k < s.cfg.memBytes) ∧
    Covers s 0 1 1#4 0 0 ∧ s.fb.pixel 0 0 = false := by
  refine ⟨by decide, by decide, by decide, ⟨0, 0, by decide, by decide, by decide, ?_⟩, by decide⟩
  show (_ ∧ _); decide

/-- The lowest sprite furthest to the right. -/
theorem witness_EdgePoliciesAgreeOnScreen :
    let s := (State.reset.setV 0 56#8).setV 1 17#8
    (s.V 0).toNat + 7 < 64 ∧ (s.V 1).toNat + (15#4).toNat ≤ 32 := by decide

/-- A pending key while Waiting; and the machine Idle. -/
theorem witness_KeyUpClearsLatchAndCompletes :
    pressed.kw.waiting = true ∧ pressed.kw.pending.has 3 = true ∧
    ¬ (State.reset.kw.waiting = true ∧ State.reset.kw.pending.has 3 = true) := by decide

theorem witness_KeyWaitEntersWaiting : State.reset.kw.waiting = false := by decide

theorem witness_KeyWaitPollsWithoutChange :
    pressed.kw.waiting = true ∧ pressed.kw.completed = none ∧ pressed.fault = none ∧
    nextInstr pressed = some (.ldVxK 5) := by decide

theorem witness_KeyWaitCompletes :
    waiting.kw.waiting = true ∧ waiting.kw.completed = some 3 ∧ waiting.kw.pending.has 3 = true := by decide

theorem witness_PressThenReleaseEndsTheWait :
    let s := start 0xF50A as_is
    s.fault = none ∧ s.kw.waiting = false ∧ nextInstr s = some (.ldVxK 5) := by decide

/-- A press of key 4 without its release, and a release of key 7, which is not pending. -/
theorem witness_OtherEventsDoNotEndTheWait :
    pressed.fault = none ∧ pressed.kw.waiting = true ∧ pressed.kw.completed = none ∧
    nextInstr pressed = some (.ldVxK 5) ∧
    NoQualifyingRelease pressed.kw.pending [.keyDown 4, .keyUp 7, .tick] := by
  refine ⟨by decide, by decide, by decide, by decide, ?_⟩
  intro k before rest h
  rcases before with _ | ⟨a, _ | ⟨b, _ | ⟨c, _ | ⟨d, l⟩⟩⟩⟩ <;> simp at h
  obtain ⟨rfl, rfl, -⟩ := h
  exact ⟨by decide, by decide⟩

end Sys2Proof.Tests
end

section
/-! PROOFS. Memory: the byte order of instruction fetch (20_memory.md R51). -/

namespace Sys2Proof.Machine

/-- Settles O6: the fetch answers the word at the pc, whose bits are those of its high byte above its low byte. -/
theorem fetchIsBigEndian : Obligations.FetchIsBigEndian := by
  intro s hpc
  refine ⟨wordAtPc s, fetch_ok hpc, fun j _ => ?highByte, fun j hj => ?lowByte⟩
  case highByte => simp [wordAtPc, getLsbD_wordOfBytes]
  case lowByte => simp [wordAtPc, getLsbD_wordOfBytes, hj]

end Sys2Proof.Machine
end

section
/-! PROOFS. Control flow: the skips on an immediate (40_control_flow.md R104, R105). -/

namespace Sys2Proof.Machine

/-- A skip is invisible except in the pc (R108). -/
theorem skipIf_onlyRegsAndPc (s : State) (c : Bool) : OnlyRegsAndPc s (s.skipIf c) (fun _ => False) where
  regs r _ := V_skipIf s c r
  bytes _ := by rw [State.skipIf_mem]
  rest := rfl

/-- What every compare or key-test skip does, given the condition `P` that its Boolean test decides. -/
theorem exec_skipIf_spec {i : Instr} {s : State} {c : Bool} {P : Prop} [Decidable P]
    (hexec : exec i s = .next (s.skipIf c)) (hc : c = true ↔ P) :
    ∃ t, exec i s = .next t ∧ t.pc.toNat = (s.pc.toNat + if P then 4 else 2) % 65536 ∧
      OnlyRegsAndPc s t (fun _ => False) := by
  have hpc : (s.skipIf c).pc.toNat = (s.pc.toNat + if P then 4 else 2) % 65536 := by
    simp only [skipIf_pc_toNat, hc]
  exact ⟨s.skipIf c, hexec, hpc, skipIf_onlyRegsAndPc s c⟩

theorem exec_seImm (x : RegIdx) (nn : Byte) (s : State) :
    exec (.seImm x nn) s = .next (s.skipIf (s.V x == nn)) := rfl

theorem exec_sneImm (x : RegIdx) (nn : Byte) (s : State) :
    exec (.sneImm x nn) s = .next (s.skipIf (s.V x != nn)) := rfl

/-- Settles O29: both instructions are skips, on `V[x] == nn` and on `V[x] != nn`. -/
theorem skipOnImmediate : Obligations.SkipOnImmediate := by
  intro x nn s
  refine ⟨?equal, ?different⟩
  case equal => exact exec_skipIf_spec (exec_seImm x nn s) beq_iff_eq
  case different => exact exec_skipIf_spec (exec_sneImm x nn s) bne_iff_ne

end Sys2Proof.Machine
end

section
/-! PROOFS. Arithmetic and logic: the instructions that write one register and no flag (41_alu.md R121 to R126). -/

namespace Sys2Proof.Machine

/-- Writing `V[x]` and going on is invisible except in `V[x]` and the pc. -/
theorem setV_advance_onlyRegsAndPc (s : State) (x : RegIdx) (b : Byte) :
    OnlyRegsAndPc s (s.setV x b).advance (fun r => r = x) where
  regs _ hr := by rw [V_advance, V_setV_other s b hr]
  bytes _ := by rw [State.advance_mem, State.setV_mem]
  rest := rfl

/-- What every instruction whose meaning is `writeV` does: no other register, VF among them, is written. -/
theorem exec_writeV_spec {i : Instr} {s : State} {x : RegIdx} {b : Byte} (hexec : exec i s = writeV x b s) :
    ∃ t, exec i s = .next t ∧ t.V x = b ∧ t.pc.toNat = (s.pc.toNat + 2) % 65536 ∧
      OnlyRegsAndPc s t (fun r => r = x) := by
  have hV : (s.setV x b).advance.V x = b := by rw [V_advance, V_setV_same]
  have hpc : (s.setV x b).advance.pc.toNat = (s.pc.toNat + 2) % 65536 := by
    rw [advance_pc_toNat, State.setV_pc]
  exact ⟨(s.setV x b).advance, hexec, hV, hpc, setV_advance_onlyRegsAndPc s x b⟩

theorem exec_ldImm (x : RegIdx) (nn : Byte) (s : State) : exec (.ldImm x nn) s = writeV x nn s := rfl

theorem exec_addImm (x : RegIdx) (nn : Byte) (s : State) :
    exec (.addImm x nn) s = writeV x (sumByte (s.V x) nn) s := rfl

theorem exec_ldReg (x y : RegIdx) (s : State) : exec (.ldReg x y) s = writeV x (s.V y) s := rfl

theorem exec_orReg (x y : RegIdx) (s : State) : exec (.orReg x y) s = writeV x (s.V x ||| s.V y) s := rfl

theorem exec_andReg (x y : RegIdx) (s : State) : exec (.andReg x y) s = writeV x (s.V x &&& s.V y) s := rfl

theorem exec_xorReg (x y : RegIdx) (s : State) : exec (.xorReg x y) s = writeV x (s.V x ^^^ s.V y) s := rfl

/-- Settles O33: LD_IMM writes `nn` to `V[x]`. -/
theorem loadImmediate : Obligations.LoadImmediate := by
  intro x nn s
  exact exec_writeV_spec (exec_ldImm x nn s)

/-- Settles O34: ADD_IMM writes the exact sum reduced modulo 256 to `V[x]`. -/
theorem addImmediate : Obligations.AddImmediate := by
  intro x nn s
  obtain ⟨t, hexec, hV, hpc, hframe⟩ := exec_writeV_spec (exec_addImm x nn s)
  have hsum : (t.V x).toNat = ((s.V x).toNat + nn.toNat) % 256 := by rw [hV, sumByte_toNat]
  exact ⟨t, hexec, hsum, hpc, hframe⟩

/-- Settles O35: each of the four writes one byte to `V[x]`, whose bits are those of `V[y]` or the rule's
Boolean operation on the bits of `V[x]` and `V[y]`. -/
theorem moveAndLogic : Obligations.MoveAndLogic := by
  intro x y s
  refine ⟨?move, ?or, ?and, ?xor⟩
  case move => exact exec_writeV_spec (exec_ldReg x y s)
  case or =>
    obtain ⟨t, hexec, hV, hpc, hframe⟩ := exec_writeV_spec (exec_orReg x y s)
    exact ⟨t, hexec, fun j _ => by rw [hV, BitVec.getLsbD_or], hpc, hframe⟩
  case and =>
    obtain ⟨t, hexec, hV, hpc, hframe⟩ := exec_writeV_spec (exec_andReg x y s)
    exact ⟨t, hexec, fun j _ => by rw [hV, BitVec.getLsbD_and], hpc, hframe⟩
  case xor =>
    obtain ⟨t, hexec, hV, hpc, hframe⟩ := exec_writeV_spec (exec_xorReg x y s)
    exact ⟨t, hexec, fun j _ => by rw [hV, BitVec.getLsbD_xor], hpc, hframe⟩

end Sys2Proof.Machine
end

section
/-! PROOFS. The index register: LD_I (42_index_memory.md R150). -/

namespace Sys2Proof.Machine

/-- What every instruction that writes the word `w` to I and goes on does: only I and the pc change. -/
theorem exec_writeI_spec {i : Instr} {s : State} {w : Word} (hexec : exec i s = .next { s with i := w }.advance) :
    ∃ t, exec i s = .next t ∧ t.i = w ∧ t.pc.toNat = (s.pc.toNat + 2) % 65536 ∧
      (∀ a, t.mem.get a = s.mem.get a) ∧ t = { s with i := t.i, pc := t.pc } := by
  have hi : { s with i := w }.advance.i = w := State.advance_i _
  have hpc : { s with i := w }.advance.pc.toNat = (s.pc.toNat + 2) % 65536 := advance_pc_toNat _
  have hmem : ∀ a, { s with i := w }.advance.mem.get a = s.mem.get a := fun _ => by rw [State.advance_mem]
  exact ⟨{ s with i := w }.advance, hexec, hi, hpc, hmem, rfl⟩

theorem exec_ldI (nnn : BitVec 12) (s : State) :
    exec (.ldI nnn) s = .next { s with i := nnn.zeroExtend 16 }.advance := rfl

/-- Settles O41: LD_I writes `nnn` to I, zero-extended and so with the same value. -/
theorem loadIndex : Obligations.LoadIndex := by
  intro nnn s
  obtain ⟨t, hexec, hi, hpc, hframe⟩ := exec_writeI_spec (exec_ldI nnn s)
  have hvalue : t.i.toNat = nnn.toNat := by rw [hi, BitVec.toNat_setWidth_of_le (by decide)]
  exact ⟨t, hexec, hvalue, hpc, hframe⟩

end Sys2Proof.Machine
end

section
/-! PROOFS. Keys and the delay timer: the key wait's polling step, the key-test skips, access to DT and its tick
(44_input_timer.md R190 to R193, R197, R202). -/

namespace Sys2Proof.Machine

/-! ### The polling step of the key wait -/

/-- In Waiting with no completed key LD_VX_K answers the state it found (R197). -/
theorem exec_ldVxK_poll (x : RegIdx) {s : State} (hw : s.kw.waiting = true) (hc : s.kw.completed = none) :
    exec (.ldVxK x) s = .next s := by
  change execLdVxK x s = .next s
  rw [execLdVxK, if_pos hw, hc]

/-- A state that a step answers unchanged is what any number of steps answers. -/
theorem runSteps_of_step_self {s : State} (h : step s = .next s) (n : Nat) : runSteps n s = .next s := by
  induction n with
  | zero => exact runSteps_zero s
  | succ n ih => rw [runSteps_succ h, ih]

/-- Settles O57: a polling LD_VX_K answers the same state, so a step that runs it does, and so does every run of
such steps. -/
theorem keyWaitPollsWithoutChange : Obligations.KeyWaitPollsWithoutChange := by
  intro x s hw hc
  have hpoll : exec (.ldVxK x) s = .next s := exec_ldVxK_poll x hw hc
  refine ⟨hpoll, fun hfault hnext n => ?_⟩
  have hstep : step s = .next s := (step_run hfault hnext).trans hpoll
  exact runSteps_of_step_self hstep n

/-! ### The key-test skips -/

/-- Only the low nibble of a byte selects the key (R190). -/
theorem keyOf_eq_of_mod {b : Byte} {k : KeyIdx} (h : b.toNat % 16 = k.val) : keyOf b = k :=
  Fin.ext ((keyOf_val b).trans h)

theorem exec_skp (x : RegIdx) (s : State) : exec (.skp x) s = .next (s.skipIf (s.keys.has (keyOf (s.V x)))) := rfl

theorem exec_sknp (x : RegIdx) (s : State) :
    exec (.sknp x) s = .next (s.skipIf (!s.keys.has (keyOf (s.V x)))) := rfl

/-- Settles O31: SKP is a skip on "key `k` is down", SKNP a skip on its negation. -/
theorem skipOnKey : Obligations.SkipOnKey := by
  intro x k s hk
  have hkey : keyOf (s.V x) = k := keyOf_eq_of_mod hk
  refine ⟨?down, ?up⟩
  case down => exact exec_skipIf_spec (exec_skp x s) (by rw [hkey])
  case up =>
    have hup : (!s.keys.has (keyOf (s.V x))) = true ↔ ¬ s.keys.has k = true := by simp [hkey]
    simpa only [ite_not] using exec_skipIf_spec (exec_sknp x s) hup

/-! ### The delay timer -/

/-- A tick takes 1 from DT and stops at 0 (R202). -/
theorem tickDelayTimer_dt_toNat (s : State) : (tickDelayTimer s).dt.toNat = s.dt.toNat - 1 := by
  by_cases hzero : s.dt = 0#8
  case pos => simp [tickDelayTimer, hzero]
  case neg =>
    have hle : 1#8 ≤ s.dt := by bv_omega
    simp [tickDelayTimer, hzero, BitVec.toNat_sub_of_le hle]

/-- Settles O53: DT is one less, floored at 0, and DT is the one field that a tick writes. -/
theorem tickDecrementsToZero : Obligations.TickDecrementsToZero :=
  fun s => ⟨tickDelayTimer_dt_toNat s, rfl⟩

theorem exec_ldVxDt (x : RegIdx) (s : State) : exec (.ldVxDt x) s = writeV x s.dt s := rfl

theorem exec_ldDtVx (x : RegIdx) (s : State) : exec (.ldDtVx x) s = .next { s with dt := s.V x }.advance := rfl

/-- Settles O52: LD_VX_DT is a register write of DT; LD_DT_VX leaves V[x] in DT for the next tick to decrement. -/
theorem delayTimerAccess : Obligations.DelayTimerAccess := by
  intro x s
  refine ⟨?read, ?write⟩
  case read => exact exec_writeV_spec (exec_ldVxDt x s)
  case write =>
    have hdt : { s with dt := s.V x }.advance.dt = s.V x := State.advance_dt _
    have hpc : { s with dt := s.V x }.advance.pc.toNat = (s.pc.toNat + 2) % 65536 := advance_pc_toNat _
    have htick : (tickDelayTimer { s with dt := s.V x }.advance).dt.toNat = (s.V x).toNat - 1 := by
      rw [tickDelayTimer_dt_toNat, hdt]
    have hmem : ∀ a, { s with dt := s.V x }.advance.mem.get a = s.mem.get a := fun _ => by rw [State.advance_mem]
    exact ⟨_, exec_ldDtVx x s, hdt, hpc, htick, hmem, rfl⟩

end Sys2Proof.Machine
end

section
/-! PROOFS. Encoding: decode and encode are inverse, and the decoder agrees with the table of masks and matches
(30_encoding.md R71 to R75). -/

namespace Sys2Proof

open Host.Outcome

/-! ### The round trips -/

/-- Decoding an encoded instruction gives it back: the layout's fields are the operands, and the fixed digits select
the instruction's own branch of R74. -/
theorem decode_encode (i : Instr) : decode (encode i) = .ok i := by
  cases i
  case cls | ret => rfl
  case jp | call | ldI => simp [encode, decode]
  case seImm | sneImm | ldImm | addImm | rnd => simp [encode, decode]
  case seReg | sneReg | drw => simp [encode, decode]
  case ldReg | orReg | andReg | xorReg | addReg | sub | shr | subn | shl => simp [encode, decode, decodeAlu]
  case skp | sknp => simp [encode, decode, decodeKeys]
  case ldVxDt | ldVxK | ldDtVx | addI | bcd | stm | ldm => simp [encode, decode, decodeMisc]

/-- Settles O1: a stream that begins with an instruction's two bytes decodes by its first word. -/
theorem decodeOfEncode : Obligations.DecodeOfEncode := by
  intro i rest
  have hword : decode (encode i) = .ok i := decode_encode i
  exact ⟨hword, by rw [encodeBytes, decodeBytes_bytesOfWord, hword]⟩

theorem fieldTop_lt (op : Word) : fieldTop op < 16 := (op.extractLsb' 12 4).isLt

theorem encode_of_decodeZero {op : Word} {i : Instr} (h : decodeZero op = .ok i) : encode i = op := by
  unfold decodeZero at h
  split at h
  case isTrue hop => cases h; exact hop.symm
  case isFalse =>
    split at h
    case isTrue hop => cases h; exact hop.symm
    case isFalse => cases h

theorem encode_of_decodeAlu {op : Word} {i : Instr} (htop : fieldTop op = 8) (h : decodeAlu op = .ok i) :
    encode i = op := by
  unfold decodeAlu at h
  split at h <;> cases h <;> exact layoutXYN_fields op 8#4 _ htop (BitVec.eq_of_toNat_eq ‹_›)

theorem encode_of_decodeKeys {op : Word} {i : Instr} (htop : fieldTop op = 14) (h : decodeKeys op = .ok i) :
    encode i = op := by
  unfold decodeKeys at h
  repeat' split at h
  all_goals cases h
  all_goals exact layoutXNN_fields op 14#4 _ htop ‹_›

theorem encode_of_decodeMisc {op : Word} {i : Instr} (htop : fieldTop op = 15) (h : decodeMisc op = .ok i) :
    encode i = op := by
  unfold decodeMisc at h
  repeat' split at h
  all_goals cases h
  all_goals exact layoutXNN_fields op 15#4 _ htop ‹_›

/-- Settles O2: an opcode is the layout of its own fields, and in each branch of R74 the digits that are no field
are those of the pattern. -/
theorem encodeOfDecode : Obligations.EncodeOfDecode := by
  intro op i h
  unfold decode at h
  split at h
  case h_1 => exact encode_of_decodeZero h
  case h_2 htop => cases h; exact layoutNNN_fields op 1#4 htop
  case h_3 htop => cases h; exact layoutNNN_fields op 2#4 htop
  case h_4 htop => cases h; exact layoutXNN_fields op 3#4 _ htop rfl
  case h_5 htop => cases h; exact layoutXNN_fields op 4#4 _ htop rfl
  case h_6 htop =>
    split at h <;> cases h
    exact layoutXYN_fields op 5#4 _ htop ‹_›
  case h_7 htop => cases h; exact layoutXNN_fields op 6#4 _ htop rfl
  case h_8 htop => cases h; exact layoutXNN_fields op 7#4 _ htop rfl
  case h_9 htop => exact encode_of_decodeAlu htop h
  case h_10 htop =>
    split at h <;> cases h
    exact layoutXYN_fields op 9#4 _ htop ‹_›
  case h_11 htop => cases h; exact layoutNNN_fields op 10#4 htop
  case h_12 => cases h
  case h_13 htop => cases h; exact layoutXNN_fields op 12#4 _ htop rfl
  case h_14 htop => cases h; exact layoutXYN_fields op 13#4 _ htop rfl
  case h_15 htop => exact encode_of_decodeKeys htop h
  case h_16 =>
    have hlt := fieldTop_lt op
    have htop : fieldTop op = 15 := by grind
    exact encode_of_decodeMisc htop h

/-! ### The opcode table -/

/-- Every instruction's encoding selects the row that bears its name (R73). -/
theorem encode_selects_row (i : Instr) : Laws.EncodesTableRow.Statement i := by
  cases i with
  | cls => exact Laws.EncodesTableRow.cls
  | ret => exact Laws.EncodesTableRow.ret
  | jp nnn => exact Laws.EncodesTableRow.jp nnn
  | call nnn => exact Laws.EncodesTableRow.call nnn
  | seImm x nn => exact Laws.EncodesTableRow.seImm x nn
  | sneImm x nn => exact Laws.EncodesTableRow.sneImm x nn
  | seReg x y => exact Laws.EncodesTableRow.seReg x y
  | ldImm x nn => exact Laws.EncodesTableRow.ldImm x nn
  | addImm x nn => exact Laws.EncodesTableRow.addImm x nn
  | ldReg x y => exact Laws.EncodesTableRow.ldReg x y
  | orReg x y => exact Laws.EncodesTableRow.orReg x y
  | andReg x y => exact Laws.EncodesTableRow.andReg x y
  | xorReg x y => exact Laws.EncodesTableRow.xorReg x y
  | addReg x y => exact Laws.EncodesTableRow.addReg x y
  | sub x y => exact Laws.EncodesTableRow.sub x y
  | shr x y => exact Laws.EncodesTableRow.shr x y
  | subn x y => exact Laws.EncodesTableRow.subn x y
  | shl x y => exact Laws.EncodesTableRow.shl x y
  | sneReg x y => exact Laws.EncodesTableRow.sneReg x y
  | ldI nnn => exact Laws.EncodesTableRow.ldI nnn
  | rnd x nn => exact Laws.EncodesTableRow.rnd x nn
  | drw x y n => exact Laws.EncodesTableRow.drw x y n
  | skp x => exact Laws.EncodesTableRow.skp x
  | sknp x => exact Laws.EncodesTableRow.sknp x
  | ldVxDt x => exact Laws.EncodesTableRow.ldVxDt x
  | ldVxK x => exact Laws.EncodesTableRow.ldVxK x
  | ldDtVx x => exact Laws.EncodesTableRow.ldDtVx x
  | addI x => exact Laws.EncodesTableRow.addI x
  | bcd x => exact Laws.EncodesTableRow.bcd x
  | stm x => exact Laws.EncodesTableRow.stm x
  | ldm x => exact Laws.EncodesTableRow.ldm x

theorem row_of_decode {op : Word} {i : Instr} (h : decode op = .ok i) :
    ∃ r ∈ opcodeTable, r.selects op = true ∧ r.mnemonic = i.mnemonic := by
  have hrow := encode_selects_row i
  rwa [Laws.EncodesTableRow.Statement, encodeOfDecode op i h] at hrow

theorem selects_iff {r : OpcodeRow} {op : Word} : r.selects op = true ↔ op &&& r.mask = r.pattern := by
  simp [OpcodeRow.selects]

/-- The rows of R73 by mask, with what each says of the fields that R74 looks at. -/
theorem opcodeTable_fields : ∀ r ∈ opcodeTable,
    (r.mask = 0xFFFF#16 ∧ (r.pattern = 0x00E0#16 ∨ r.pattern = 0x00EE#16)) ∨
    (r.mask = 0xF000#16 ∧ fieldTop r.pattern ∈ [1, 2, 3, 4, 6, 7, 10, 12, 13]) ∨
    (r.mask = 0xF00F#16 ∧ fieldTop r.pattern ∈ [5, 9] ∧ fieldN r.pattern = 0#4) ∨
    (r.mask = 0xF00F#16 ∧ fieldTop r.pattern = 8 ∧ (fieldN r.pattern).toNat ∈ [0, 1, 2, 3, 4, 5, 6, 7, 14]) ∨
    (r.mask = 0xF0FF#16 ∧ fieldTop r.pattern = 14 ∧ fieldNN r.pattern ∈ [0x9E#8, 0xA1#8]) ∨
    (r.mask = 0xF0FF#16 ∧ fieldTop r.pattern = 15 ∧
      fieldNN r.pattern ∈ [0x07#8, 0x0A#8, 0x15#8, 0x1E#8, 0x33#8, 0x55#8, 0x65#8]) := by
  decide

theorem decodes_of_top {op : Word} (h : fieldTop op ∈ [1, 2, 3, 4, 6, 7, 10, 12, 13]) : ∃ i, decode op = .ok i := by
  simp only [List.mem_cons, List.not_mem_nil, or_false] at h
  rcases h with h | h | h | h | h | h | h | h | h <;> simp [decode, h]

theorem decodes_of_compare {op : Word} (h : fieldTop op ∈ [5, 9]) (hn : fieldN op = 0#4) :
    ∃ i, decode op = .ok i := by
  simp only [List.mem_cons, List.not_mem_nil, or_false] at h
  rcases h with h | h <;> simp [decode, h, hn]

theorem decodes_of_alu {op : Word} (h : fieldTop op = 8)
    (hn : (fieldN op).toNat ∈ [0, 1, 2, 3, 4, 5, 6, 7, 14]) : ∃ i, decode op = .ok i := by
  simp only [List.mem_cons, List.not_mem_nil, or_false] at hn
  rcases hn with hn | hn | hn | hn | hn | hn | hn | hn | hn <;> simp [decode, h, decodeAlu, hn]

theorem decodes_of_keys {op : Word} (h : fieldTop op = 14) (hnn : fieldNN op ∈ [0x9E#8, 0xA1#8]) :
    ∃ i, decode op = .ok i := by
  have hdecode : decode op = decodeKeys op := by simp [decode, h]
  simp only [List.mem_cons, List.not_mem_nil, or_false] at hnn
  rcases hnn with hnn | hnn <;> simp [hdecode, decodeKeys, hnn]

theorem decodes_of_misc {op : Word} (h : fieldTop op = 15)
    (hnn : fieldNN op ∈ [0x07#8, 0x0A#8, 0x15#8, 0x1E#8, 0x33#8, 0x55#8, 0x65#8]) : ∃ i, decode op = .ok i := by
  have hdecode : decode op = decodeMisc op := by simp [decode, h]
  simp only [List.mem_cons, List.not_mem_nil, or_false] at hnn
  rcases hnn with hnn | hnn | hnn | hnn | hnn | hnn | hnn <;> simp [hdecode, decodeMisc, hnn]

/-- An opcode that selects a row has the pattern's value in every field that the row's mask keeps, and so decodes. -/
theorem decodes_of_selects {r : OpcodeRow} (hr : r ∈ opcodeTable) {op : Word} (h : r.selects op = true) :
    ∃ i, decode op = .ok i := by
  rw [selects_iff] at h
  rcases opcodeTable_fields r hr with ⟨hm, hp⟩ | ⟨hm, htop⟩ | ⟨hm, htop, hn⟩ | ⟨hm, htop, hn⟩ | ⟨hm, htop, hnn⟩ |
    ⟨hm, htop, hnn⟩ <;> rw [hm] at h
  · have hop : op &&& 0xFFFF#16 = op := BitVec.and_allOnes
    rw [hop] at h
    subst h
    rcases hp with hp | hp <;> rw [hp] <;> exact ⟨_, rfl⟩
  · rw [← h, fieldTop_maskTop] at htop
    exact decodes_of_top htop
  · rw [← h, fieldTop_maskXY] at htop
    rw [← h, fieldN_maskXY] at hn
    exact decodes_of_compare htop hn
  · rw [← h, fieldTop_maskXY] at htop
    rw [← h, fieldN_maskXY] at hn
    exact decodes_of_alu htop hn
  · rw [← h, fieldTop_maskX] at htop
    rw [← h, fieldNN_maskX] at hnn
    exact decodes_of_keys htop hnn
  · rw [← h, fieldTop_maskX] at htop
    rw [← h, fieldNN_maskX] at hnn
    exact decodes_of_misc htop hnn

theorem legal_iff_selects {op : Word} : Opcode.legal op = true ↔ ∃ r ∈ opcodeTable, r.selects op = true := by
  simp [Opcode.legal]

/-- An opcode is legal exactly when it decodes (R75). -/
theorem legal_iff_decodes {op : Word} : Opcode.legal op = true ↔ ∃ i, decode op = .ok i := by
  rw [legal_iff_selects]
  constructor
  · rintro ⟨r, hr, h⟩
    exact decodes_of_selects hr h
  · rintro ⟨i, h⟩
    obtain ⟨r, hr, hsel, -⟩ := row_of_decode h
    exact ⟨r, hr, hsel⟩

/-- Settles O3: a decoded opcode is the instruction's encoding, which selects the instruction's row, and a legal
opcode decodes. -/
theorem decodeAgreesWithOpcodeTable : Obligations.DecodeAgreesWithOpcodeTable :=
  fun _ => ⟨fun _ h => row_of_decode h, legal_iff_decodes.mp⟩

/-- Two different rows differ in a bit that both masks keep. -/
theorem opcodeTable_patterns_differ :
    ∀ r₁ ∈ opcodeTable, ∀ r₂ ∈ opcodeTable, r₁.pattern &&& r₂.mask = r₂.pattern &&& r₁.mask → r₁ = r₂ := by
  decide

/-- Settles O4: on the bits that both masks keep, an opcode that selects two rows has both patterns. -/
theorem opcodeRowsExclusive : Obligations.OpcodeRowsExclusive := by
  intro r₁ hr₁ r₂ hr₂ op h₁ h₂
  rw [selects_iff] at h₁ h₂
  have hcommon : r₁.pattern &&& r₂.mask = r₂.pattern &&& r₁.mask := by
    rw [← h₁, ← h₂, BitVec.and_assoc, BitVec.and_assoc, BitVec.and_comm r₁.mask]
  exact opcodeTable_patterns_differ r₁ hr₁ r₂ hr₂ hcommon

/-- Settles O5: the ten words are closed, so the decoder computes each. -/
theorem writtenWordsDecode : Obligations.WrittenWordsDecode := by
  unfold Obligations.WrittenWordsDecode
  decide

end Sys2Proof
end

section
/-! PROOFS. Fatal errors: the one error that a state and an instruction determine, and what a step that raises does
(60_exceptions.md R220 to R226). -/

namespace Sys2Proof.Machine

open Host.Outcome

/-! ### The error of an instruction -/

/-- How many bytes of memory an instruction accesses from I on (R155, R171). -/
def dataBytes : Instr → Nat
  | .drw _ _ n => n.toNat
  | .bcd _ => 3
  | .stm x | .ldm x => x.val + 1
  | _ => 0

/-- The error of an access to `n` bytes from I on, if one lies outside memory (R223). -/
def dataError (s : State) (n : Nat) : Option Fault :=
  (firstOutside s.cfg.memBytes (s.dataAddr 0) n).map .boundsError

/-- The error that an instruction raises, if it raises one (R221 to R223). -/
def execError : Instr → State → Option Fault
  | .ret, s => if s.stack = [] then some (.stackUnderflow (encode .ret) s.pc) else none
  | .call nnn, s =>
    if s.cfg.stackDepth ≤ s.stack.length then some (.stackOverflow (encode (.call nnn)) s.pc) else none
  | i, s => dataError s (dataBytes i)

theorem dataError_inside {s : State} {n : Nat} (h : n = 0 ∨ s.dataAddr 0 + n ≤ s.cfg.memBytes) :
    dataError s n = none := by
  simp [dataError, firstOutside_eq_none h]

theorem dataError_outside {s : State} {n : Nat} (hn : 0 < n) (h : s.cfg.memBytes < s.dataAddr 0 + n) :
    dataError s n = some (.boundsError (max s.i.toNat s.cfg.memBytes)) := by
  rw [dataError, firstOutside_eq_some hn h]
  rfl

/-- The access is outside as soon as its last address is. -/
theorem dataError_of_last {s : State} {k : Nat} (h : s.cfg.memBytes ≤ s.dataAddr k) :
    dataError s (k + 1) = some (.boundsError (max s.i.toNat s.cfg.memBytes)) :=
  dataError_outside (Nat.succ_pos k) (Nat.lt_succ_of_le h)

theorem dataError_eq_some {s : State} {n : Nat} {e : Fault} (h : dataError s n = some e) :
    e = .boundsError (max s.i.toNat s.cfg.memBytes) := by
  rcases firstOutside_cases s.cfg.memBytes (s.dataAddr 0) n with ⟨-, hin⟩ | ⟨-, hn, hout⟩
  · rw [dataError_inside hin] at h
    cases h
  · rw [dataError_outside hn hout] at h
    exact (Option.some.inj h).symm

/-- An instruction takes its error, or it has none and leaves the fault latch as it was. -/
theorem exec_raises_or_completes (i : Instr) (s : State) :
    (∃ e, execError i s = some e ∧ exec i s = raise e s) ∨
    (execError i s = none ∧ ∃ t, exec i s = next t ∧ t.fault = s.fault) := by
  cases i
  case ret =>
    rcases execRet_cases s with ⟨ws, w, hs, h⟩ | ⟨hs, h⟩
    · exact .inr ⟨by simp [execError, hs], _, h, rfl⟩
    · exact .inl ⟨_, if_pos hs, h⟩
  case call nnn =>
    rcases execCall_cases nnn s with ⟨h, hs⟩ | ⟨h, hs⟩
    · exact .inr ⟨if_neg (by omega), _, h, rfl⟩
    · exact .inl ⟨_, if_pos hs, h⟩
  case drw x y n =>
    rcases execDrw_cases x y n s with ⟨h, hin⟩ | ⟨h, hn, hout⟩
    · exact .inr ⟨dataError_inside hin, _, h, rfl⟩
    · exact .inl ⟨_, dataError_outside hn hout, h⟩
  case bcd x =>
    rcases execBcd_cases x s with ⟨h, hin⟩ | ⟨h, hout⟩
    · exact .inr ⟨dataError_inside (.inr hin), _, h, rfl⟩
    · exact .inl ⟨_, dataError_outside (Nat.succ_pos 2) hout, h⟩
  case stm x =>
    rcases execStm_cases x s with ⟨h, hin⟩ | ⟨h, hout⟩
    · exact .inr ⟨dataError_inside (.inr hin), _, h, rfl⟩
    · exact .inl ⟨_, dataError_outside (Nat.succ_pos x.val) hout, h⟩
  case ldm x =>
    rcases execLdm_cases x s with ⟨h, hin⟩ | ⟨h, hout⟩
    · exact .inr ⟨dataError_inside (.inr hin), _, h, rfl⟩
    · exact .inl ⟨_, dataError_outside (Nat.succ_pos x.val) hout, h⟩
  case ldVxK x =>
    rcases execLdVxK_cases x s with ⟨-, h⟩ | ⟨-, -, h⟩ | ⟨k, -, -, -, h⟩ <;> exact .inr ⟨rfl, _, h, rfl⟩
  all_goals exact .inr ⟨rfl, _, rfl, rfl⟩

theorem exec_of_error {i : Instr} {s : State} {e : Fault} (h : execError i s = some e) : exec i s = raise e s := by
  rcases exec_raises_or_completes i s with ⟨e', he', hexec⟩ | ⟨hnone, -⟩
  · cases h.symm.trans he'
    exact hexec
  · cases h.symm.trans hnone

theorem exec_fault {i : Instr} {s t : State} (hf : s.fault = none) (h : exec i s = next t) :
    t.fault = execError i s := by
  rcases exec_raises_or_completes i s with ⟨e, he, hexec⟩ | ⟨hnone, t', hexec, hfault⟩
  · cases h.symm.trans hexec
    exact he.symm
  · cases h.symm.trans hexec
    rw [hfault, hf, hnone]

/-- Settles O13: the error of RET, of CALL and of the four that access data, each with its cause. -/
theorem errorsOfEachInstruction : Obligations.ErrorsOfEachInstruction := by
  intro i s t e hf hexec he
  have herror : execError i s = some e := by rw [← exec_fault hf hexec, he]
  have hbounds : ∀ {n}, dataError s n = some e → ∃ a, s.cfg.memBytes ≤ a ∧ s.i.toNat ≤ a ∧ e = .boundsError a :=
    fun hn => ⟨_, le_max_right _ _, le_max_left _ _, dataError_eq_some hn⟩
  cases i
  case ret =>
    obtain ⟨hs, he⟩ := Option.ite_none_right_eq_some.mp herror
    cases he
    exact .inl ⟨rfl, hs, rfl⟩
  case call nnn =>
    obtain ⟨hs, he⟩ := Option.ite_none_right_eq_some.mp herror
    cases he
    exact .inr (.inl ⟨nnn, rfl, hs, rfl⟩)
  case drw x y n => exact .inr (.inr ⟨.inl ⟨x, y, n, rfl⟩, hbounds herror⟩)
  case bcd x => exact .inr (.inr ⟨.inr (.inl ⟨x, rfl⟩), hbounds herror⟩)
  case stm x => exact .inr (.inr ⟨.inr (.inr (.inl ⟨x, rfl⟩)), hbounds herror⟩)
  case ldm x => exact .inr (.inr ⟨.inr (.inr (.inr ⟨x, rfl⟩)), hbounds herror⟩)
  all_goals cases herror

/-- Settles O46: an access of n bytes that ends outside memory has the error of the first address without a byte. -/
theorem dataAccessOutsideMemoryRaises : Obligations.DataAccessOutsideMemoryRaises := by
  intro x y n s
  refine ⟨fun h => ?bcd, fun h => ⟨?stm, ?ldm⟩, fun hn h => ?drw⟩
  case bcd => exact exec_of_error (i := .bcd x) (dataError_of_last h)
  case stm => exact exec_of_error (i := .stm x) (dataError_of_last h)
  case ldm => exact exec_of_error (i := .ldm x) (dataError_of_last h)
  case drw =>
    have hpos : 0 < n.toNat := Nat.pos_of_ne_zero fun h0 => hn (BitVec.eq_of_toNat_eq h0)
    have herror := dataError_of_last h
    rw [Nat.sub_add_cancel hpos] at herror
    exact exec_of_error (i := .drw x y n) herror

/-! ### The error of a step -/

/-- The error that a step raises, if it raises one: of the fetch, of the decoder or of the instruction (R226). -/
def stepError (s : State) : Option Fault :=
  match fetch s with
  | .error e => some e
  | .ok op =>
    match decode op with
    | .illegal _ => some (.decodeError op s.pc)
    | .ok i => execError i s

/-- With no error latched a step takes its error, or it has none and latches none. -/
theorem step_raises_or_completes {s : State} (hf : s.fault = none) :
    (∃ e, stepError s = some e ∧ step s = raise e s) ∨
    (stepError s = none ∧ ∃ t, step s = next t ∧ t.fault = none) := by
  unfold stepError step
  rw [hf]
  cases fetch s with
  | error e => exact .inl ⟨e, rfl, rfl⟩
  | ok op =>
    cases hd : decode op with
    | illegal r => exact .inl ⟨.decodeError op s.pc, by simp only [hd], by simp only [hd]⟩
    | ok i => simpa only [hd, hf] using exec_raises_or_completes i s

theorem step_of_error {s : State} {e : Fault} (hf : s.fault = none) (h : stepError s = some e) :
    step s = raise e s := by
  rcases step_raises_or_completes hf with ⟨e', he', hstep⟩ | ⟨hnone, -⟩
  · cases h.symm.trans he'
    exact hstep
  · cases h.symm.trans hnone

theorem step_fault {s t : State} (hf : s.fault = none) (h : step s = next t) : t.fault = stepError s := by
  rcases step_raises_or_completes hf with ⟨e, he, hstep⟩ | ⟨hnone, t', hstep, hfault⟩
  · cases h.symm.trans hstep
    exact he.symm
  · cases h.symm.trans hstep
    rw [hfault, hnone]

theorem stepOutput_of_raise {s : State} {e : Fault} (h : step s = raise e s) :
    stepOutput s = { notify := none, report := some e } := by
  simp [stepOutput, h, raise]

/-- Settles O7: a fetched word that decodes is what the step runs. -/
theorem stepRunsDecodedInstruction : Obligations.StepRunsDecodedInstruction :=
  fun _ _ hf hpc hd => step_run hf (nextInstr_eq_some.mpr ⟨hpc, hd⟩)

/-- Settles O8: an illegal opcode does not decode, and the step's error is DecodeError. -/
theorem illegalOpcodeRaisesDecodeError : Obligations.IllegalOpcodeRaisesDecodeError := by
  intro s hf hpc op hillegal
  have hfetch : fetch s = .ok op := fetch_ok hpc
  have hd : ∃ r, decode op = .illegal r := by
    cases hd : decode op with
    | illegal r => exact ⟨r, rfl⟩
    | ok i => rw [legal_iff_decodes.mpr ⟨i, hd⟩] at hillegal; cases hillegal
  obtain ⟨r, hd⟩ := hd
  exact step_of_error hf (by rw [stepError, hfetch]; simp only [hd])

theorem stepError_of_outside {s : State} (h : s.cfg.memBytes ≤ s.pc.toNat + 1) :
    stepError s = some (.boundsError (max s.pc.toNat s.cfg.memBytes)) := by
  rcases fetch_cases s with ⟨hin, -⟩ | ⟨-, hfetch⟩
  · omega
  · rw [stepError, hfetch]

/-- Settles O9: the fetch's error names the pc or, if only the second byte is missing, the address after it. -/
theorem fetchOutsideMemoryRaises : Obligations.FetchOutsideMemoryRaises := by
  intro s hf
  refine ⟨fun h => ?firstByte, fun h₁ h₂ => ?secondByte⟩
  case firstByte =>
    have herror := stepError_of_outside (s := s) (by omega)
    rw [max_eq_left h] at herror
    exact step_of_error hf herror
  case secondByte =>
    have herror := stepError_of_outside h₂
    rw [show max s.pc.toNat s.cfg.memBytes = s.pc.toNat + 1 by omega] at herror
    exact step_of_error hf herror

/-- Settles O11: a step that latches e is one whose error is e, and it is `raise e`. -/
theorem raisingStepCommitsNothing : Obligations.RaisingStepCommitsNothing := by
  intro s t e hf hstep he
  have hraise : step s = raise e s := step_of_error hf ((step_fault hf hstep).symm.trans he)
  cases hstep.symm.trans hraise
  exact ⟨rfl, stepOutput_of_raise hraise⟩

/-! ### The cause of an error -/

theorem execError_congr (i : Instr) {s t : State} (hi : t.i = s.i) (hpc : t.pc = s.pc)
    (hstack : t.stack = s.stack) (hcfg : t.cfg = s.cfg) : execError i t = execError i s := by
  have hdata : ∀ n, dataError t n = dataError s n := fun n => by
    simp only [dataError, State.dataAddr, hi, hcfg]
  cases i
  case ret => simp only [execError, hstack, hpc]
  case call => simp only [execError, hstack, hpc, hcfg]
  all_goals exact hdata _

/-- A step's error depends on I, the pc, the stack, memory and the parameters, and on nothing else. -/
theorem stepError_congr {s t : State} (hi : t.i = s.i) (hpc : t.pc = s.pc) (hstack : t.stack = s.stack)
    (hmem : t.mem = s.mem) (hcfg : t.cfg = s.cfg) : stepError t = stepError s := by
  have hexec : ∀ i, execError i t = execError i s := fun i => execError_congr i hi hpc hstack hcfg
  simp only [stepError, fetch_congr hpc hmem hcfg, hexec, hpc]

/-- Settles O14: host events move nothing that the step's error depends on. -/
theorem reexecutionRaisesTheSameError : Obligations.ReexecutionRaisesTheSameError := by
  intro s t e es hf hstep he
  have herror : stepError s = some e := (step_fault hf hstep).symm.trans he
  cases hstep.symm.trans (step_of_error hf herror)
  have hframe := deliverAll_frame es { s with fault := some e }
  have hsame : stepError { deliverAll es { s with fault := some e } with fault := none } = some e := by
    rw [hframe, ← herror]
    exact stepError_congr rfl rfl rfl rfl rfl
  rw [step_of_error rfl hsame, raise, hframe]

end Sys2Proof.Machine
end

section
/-! PROOFS. The instructions that have an error, when they have none: one equation for each way to complete, and for
each way through LD_VX_K. -/

namespace Sys2Proof.Machine

open Host.Outcome

theorem exec_ret_of_append {s : State} {ws : List Word} {w : Word} (h : s.stack = ws ++ [w]) :
    exec .ret s = next { s with stack := ws, pc := w } := by
  simp [exec, execRet, State.pop, h]

theorem exec_ret_of_empty {s : State} (h : s.stack = []) :
    exec .ret s = raise (.stackUnderflow (encode .ret) s.pc) s := by
  simp [exec, execRet, State.pop, h]

theorem exec_call_of_room {s : State} (nnn : BitVec 12) (h : s.stack.length < s.cfg.stackDepth) :
    exec (.call nnn) s = next ((s.push (s.pc + 2#16)).jump nnn) :=
  if_neg (Nat.not_le.mpr h)

theorem exec_call_of_full {s : State} (nnn : BitVec 12) (h : s.cfg.stackDepth ≤ s.stack.length) :
    exec (.call nnn) s = raise (.stackOverflow (encode (.call nnn)) s.pc) s :=
  if_pos h

theorem exec_bcd_inside {s : State} (x : RegIdx) (h : s.dataAddr 0 + 3 ≤ s.cfg.memBytes) :
    exec (.bcd x) s = next { s with mem := s.mem.setAll (s.dataAddr 0) (decimalDigits (s.V x)) }.advance := by
  rcases execBcd_cases x s with ⟨hexec, -⟩ | ⟨-, hout⟩
  · exact hexec
  · omega

theorem exec_stm_inside {s : State} {x : RegIdx} (h : s.dataAddr 0 + (x.val + 1) ≤ s.cfg.memBytes) :
    exec (.stm x) s = next { s with mem := s.mem.setAll (s.dataAddr 0) (s.regsUpTo x) }.advance := by
  rcases execStm_cases x s with ⟨hexec, -⟩ | ⟨-, hout⟩
  · exact hexec
  · omega

theorem exec_ldm_inside {s : State} {x : RegIdx} (h : s.dataAddr 0 + (x.val + 1) ≤ s.cfg.memBytes) :
    exec (.ldm x) s =
      next { s with v := loadRegs s.v 0 (s.mem.getAll (s.dataAddr 0) (x.val + 1)) }.advance := by
  rcases execLdm_cases x s with ⟨hexec, -⟩ | ⟨-, hout⟩
  · exact hexec
  · omega

theorem exec_drw_inside {s : State} (x y : RegIdx) {n : BitVec 4}
    (h : n.toNat = 0 ∨ s.dataAddr 0 + n.toNat ≤ s.cfg.memBytes) :
    exec (.drw x y n) s =
      next (drawSprite x y s (s.mem.getAll (s.dataAddr 0) n.toNat)).notifyDisplay.advance := by
  rcases execDrw_cases x y n s with ⟨hexec, -⟩ | ⟨-, hn, hout⟩
  · exact hexec
  · omega

theorem exec_ldVxK_idle {s : State} (x : RegIdx) (hw : s.kw.waiting = false) :
    exec (.ldVxK x) s = next { s with kw := KeyWait.entered } := by
  simp [exec, execLdVxK, hw]

theorem exec_ldVxK_completed {s : State} (x : RegIdx) {k : KeyIdx} (hw : s.kw.waiting = true)
    (hc : s.kw.completed = some k) (hp : s.kw.pending ≠ KeySet.empty) :
    exec (.ldVxK x) s = next { s.setV x (keyByte k) with kw := KeyWait.idle }.advance := by
  simp [exec, execLdVxK, hw, hc, hp]

theorem exec_ldVxK_unfinished {s : State} (x : RegIdx) (hw : s.kw.waiting = true)
    (h : s.kw.completed = none ∨ s.kw.pending = KeySet.empty) : exec (.ldVxK x) s = next s := by
  rcases execLdVxK_cases x s with ⟨hw', -⟩ | ⟨-, -, hexec⟩ | ⟨k, -, hc, hp, -⟩
  · rw [hw] at hw'
    cases hw'
  · exact hexec
  · simp [hc, hp] at h

end Sys2Proof.Machine
end

section
/-! PROOFS. Whole-machine rules: which instruction writes which piece of state (10_state.md sections 1 to 12), the
pc table (R24), the display-notify event (43_display.md R172), and what a pixel can reach (R28). -/

namespace Sys2Proof.Machine

open Host.Outcome

/-! ### Who writes what -/

/-- Settles O21: each effect leaves all but a few fields as they were, and names the instructions that have it. -/
theorem writersOfEachPieceOfState : Obligations.WritersOfEachPieceOfState := by
  intro i s t h
  cases exec_effect h with
  | stored _ hi => simp [hi]
  | raised | cleared | returned | jumped | called | skipped | indexLoaded | indexAdded | randomDrawn | drawn
  | timerSet | waitEntered | waitPolled | waitEnded | regsWritten => simp

/-- Settles O22: an effect that writes registers says which. -/
theorem writersOfRegisters : Obligations.WritersOfRegisters := by
  intro i s t r h hr
  cases exec_effect h with
  | randomDrawn x nn v hv => exact hv r hr
  | drawn x y n v fb hv => exact hv r hr
  | regsWritten _ _ v hv => exact hv r hr
  | waitEnded x k => exact getElem_set_other s.v _ hr
  | raised | cleared | returned | jumped | called | skipped | indexLoaded | indexAdded | timerSet | stored
  | waitEntered | waitPolled => rfl

/-! ### The pc -/

/-- Settles O23: each effect without an error moves the pc as R24's row of its instruction says. -/
theorem pcUpdateOfEachInstruction : Obligations.PcUpdateOfEachInstruction := by
  intro i s t hf h hok
  cases exec_effect h with
  | raised _ e => cases hok
  | returned ws w hs => simp [hs]
  | jumped nnn | called nnn =>
    have hpc : (nnn.zeroExtend 16).toNat = nnn.toNat := jump_pc_toNat s nnn
    simp [hpc]
  | skipped _ hi c => cases hi <;> cases c <;> simp
  | waitEntered x hw => simp [hw]
  | waitPolled x hw => simp [hw]
  | waitEnded x k hw => simp [hw, KeyWait.idle]
  | stored _ hi => rcases hi with ⟨x, rfl⟩ | ⟨x, rfl⟩ <;> simp
  | regsWritten _ hi => cases hi <;> simp
  | cleared | indexLoaded | indexAdded | randomDrawn | drawn | timerSet => simp

/-! ### The display-notify event -/

/-- The instructions that notify the display (R172). -/
def Notifies (i : Instr) : Prop := i = .cls ∨ ∃ x y n, i = .drw x y n

/-- An instruction counts an event exactly when it completes and is one that notifies the display. -/
theorem exec_notices_iff {i : Instr} {s t : State} (hf : s.fault = none) (h : exec i s = next t) :
    t.notices ≠ s.notices ↔ t.fault = none ∧ Notifies i := by
  cases exec_effect h with
  | cleared | drawn => simp [hf, Notifies]
  | raised => simp
  | skipped _ hi => cases hi <;> simp [Notifies]
  | stored _ hi => rcases hi with ⟨x, rfl⟩ | ⟨x, rfl⟩ <;> simp [Notifies]
  | regsWritten _ hi => cases hi <;> simp [Notifies]
  | returned | jumped | called | indexLoaded | indexAdded | randomDrawn | timerSet | waitEntered | waitPolled
  | waitEnded => simp [Notifies]

/-- A step counts an event exactly when it completes an instruction that notifies the display. -/
theorem step_notices_iff {s t : State} (h : step s = next t) :
    t.notices ≠ s.notices ↔ s.fault = none ∧ t.fault = none ∧ ∃ i, nextInstr s = some i ∧ Notifies i := by
  rcases step_cases s with ⟨e, hf, hstep⟩ | ⟨-, -, hnext, hstep⟩ | ⟨-, -, hnext, -, hstep⟩ |
    ⟨i, hf, -, hnext, hstep⟩ <;> rw [h] at hstep
  · cases hstep
    simp [hf]
  · cases hstep
    simp
  · cases hstep
    simp
  · rw [exec_notices_iff hf hstep.symm]
    simp [hf, hnext]

theorem stepOutput_notify {s t : State} (h : step s = next t) :
    (stepOutput s).notify = if t.notices = s.notices then none else some t.fb := by
  rw [stepOutput, h]

/-- Settles O15: the event is there exactly when the count has risen. -/
theorem notifyEventExactlyOnClearAndDraw : Obligations.NotifyEventExactlyOnClearAndDraw := by
  intro s t h
  have hinstr : (∃ i, nextInstr s = some i ∧ Notifies i) ↔
      nextInstr s = some .cls ∨ ∃ x y n, nextInstr s = some (.drw x y n) := by
    constructor
    · rintro ⟨i, hi, rfl | ⟨x, y, n, rfl⟩⟩
      · exact .inl hi
      · exact .inr ⟨x, y, n, hi⟩
    · rintro (hi | ⟨x, y, n, hi⟩)
      · exact ⟨_, hi, .inl rfl⟩
      · exact ⟨_, hi, .inr ⟨x, y, n, rfl⟩⟩
  rw [← hinstr, ← step_notices_iff h, stepOutput_notify h]
  exact ⟨fun hne => if_neg hne, fun heq => if_pos (not_not.mp heq)⟩

/-! ### What a pixel can reach -/

/-- Results that differ in the framebuffer alone are as R28 allows for every instruction. -/
theorem pixelsReach_of_frame {i : Instr} {t t' : State} (h : t' = { t with fb := t'.fb }) :
    t' = { t with fb := t'.fb, v := t'.v } ∧ (∀ r, r ≠ VF → t'.V r = t.V r) ∧
      ((∀ x y n, i ≠ .drw x y n) → t'.v = t.v) := by
  have hv : t'.v = t.v := by rw [h]
  exact ⟨by rw [hv]; exact h, fun r _ => by simp only [State.V, hv], fun _ => hv⟩

/-- Drawing writes no register but VF. -/
theorem V_drawSprite_other (x y : RegIdx) (s : State) (sprite : List Byte) {r : RegIdx} (hr : r ≠ VF) :
    (drawSprite x y s sprite).V r = s.V r :=
  getElem_set_other s.v _ hr

/-- Settles O24: no condition of an instruction reads the framebuffer, so both executions take the same way
through it, and only DRW's collision bit depends on a pixel. -/
theorem pixelsReachOnlyVF : Obligations.PixelsReachOnlyVF := by
  intro i s fb'
  cases i
  case ret =>
    rcases execRet_cases s with ⟨ws, w, hs, h⟩ | ⟨hs, h⟩
    · exact ⟨_, _, h, exec_ret_of_append (s := { s with fb := fb' }) hs, pixelsReach_of_frame rfl⟩
    · exact ⟨_, _, h, exec_ret_of_empty (s := { s with fb := fb' }) hs, pixelsReach_of_frame rfl⟩
  case call nnn =>
    rcases execCall_cases nnn s with ⟨h, hs⟩ | ⟨h, hs⟩
    · exact ⟨_, _, h, exec_call_of_room (s := { s with fb := fb' }) nnn hs, pixelsReach_of_frame rfl⟩
    · exact ⟨_, _, h, exec_call_of_full (s := { s with fb := fb' }) nnn hs, pixelsReach_of_frame rfl⟩
  case drw x y n =>
    rcases execDrw_cases x y n s with ⟨h, hin⟩ | ⟨h, hn, hout⟩
    · refine ⟨_, _, h, exec_drw_inside (s := { s with fb := fb' }) x y hin, rfl, fun r hr => ?_, fun hi => ?_⟩
      · simp only [V_advance, V_notifyDisplay, V_drawSprite_other _ _ _ _ hr]
        rfl
      · exact absurd rfl (hi x y n)
    · exact ⟨_, _, h, exec_of_error (s := { s with fb := fb' }) (i := .drw x y n) (dataError_outside hn hout),
        pixelsReach_of_frame rfl⟩
  case bcd x =>
    rcases execBcd_cases x s with ⟨h, hin⟩ | ⟨h, hout⟩
    · exact ⟨_, _, h, exec_bcd_inside (s := { s with fb := fb' }) x hin, pixelsReach_of_frame rfl⟩
    · exact ⟨_, _, h, exec_of_error (s := { s with fb := fb' }) (i := .bcd x)
        (dataError_outside (Nat.succ_pos 2) hout), pixelsReach_of_frame rfl⟩
  case stm x =>
    rcases execStm_cases x s with ⟨h, hin⟩ | ⟨h, hout⟩
    · exact ⟨_, _, h, exec_stm_inside (s := { s with fb := fb' }) hin, pixelsReach_of_frame rfl⟩
    · exact ⟨_, _, h, exec_of_error (s := { s with fb := fb' }) (i := .stm x)
        (dataError_outside (Nat.succ_pos x.val) hout), pixelsReach_of_frame rfl⟩
  case ldm x =>
    rcases execLdm_cases x s with ⟨h, hin⟩ | ⟨h, hout⟩
    · exact ⟨_, _, h, exec_ldm_inside (s := { s with fb := fb' }) hin, pixelsReach_of_frame rfl⟩
    · exact ⟨_, _, h, exec_of_error (s := { s with fb := fb' }) (i := .ldm x)
        (dataError_outside (Nat.succ_pos x.val) hout), pixelsReach_of_frame rfl⟩
  case ldVxK x =>
    rcases execLdVxK_cases x s with ⟨hw, h⟩ | ⟨hw, hc, h⟩ | ⟨k, hw, hc, hp, h⟩
    · exact ⟨_, _, h, exec_ldVxK_idle (s := { s with fb := fb' }) x hw, pixelsReach_of_frame rfl⟩
    · exact ⟨_, _, h, exec_ldVxK_unfinished (s := { s with fb := fb' }) x hw hc, pixelsReach_of_frame rfl⟩
    · exact ⟨_, _, h, exec_ldVxK_completed (s := { s with fb := fb' }) x hw hc hp, pixelsReach_of_frame rfl⟩
  all_goals exact ⟨_, _, rfl, rfl, pixelsReach_of_frame rfl⟩

end Sys2Proof.Machine
end

section
/-! PROOFS. The invariant of R36: every step and every host transaction keeps it, and a reset establishes it
(10_state.md sections 12, 15, 70_reset_and_hazards.md R250, R252). -/

namespace Sys2Proof.Machine

open Host.Outcome

/-! ### Ways to meet the invariant -/

/-- In Idle the whole key wait is the one of reset. -/
theorem Inv.kw_eq_idle {s : State} (h : Inv s) (hw : s.kw.waiting = false) : s.kw = KeyWait.idle := by
  obtain ⟨hp, hc⟩ := h.idleEmpty hw
  calc s.kw = ⟨s.kw.waiting, s.kw.pending, s.kw.completed⟩ := rfl
    _ = KeyWait.idle := by rw [hw, hp, hc]; rfl

/-- The key wait of reset meets all that the invariant asks of it. -/
theorem inv_of_idle {t : State} (hkw : t.kw = KeyWait.idle) (hcfg : t.cfg.wf = true)
    (hmem : t.mem.wf ∧ ∀ p ∈ t.mem, p.1 < t.cfg.memBytes)
    (hstack : t.stack.length ≤ t.cfg.stackDepth ∧ ∀ w ∈ t.stack, w.toNat ≤ t.cfg.memBytes)
    (hpc : t.pc.toNat ≤ t.cfg.memBytes + 2) : Inv t where
  cfgWf := hcfg
  memWf := hmem.1
  memInside := hmem.2
  stackBound := hstack.1
  stackEntries := hstack.2
  pcBound := hpc
  idleEmpty _ := by rw [hkw]; exact ⟨rfl, rfl⟩
  completedIn k hk := by rw [hkw] at hk; cases hk
  waitingAtKey hw := by rw [hkw] at hw; cases hw

/-- Between states with the same pc, memory, stack and parameters only the key wait is to be looked at. -/
theorem Inv.of_frame {s t : State} (h : Inv s) (hpc : t.pc = s.pc) (hmem : t.mem = s.mem) (hcfg : t.cfg = s.cfg)
    (hstack : t.stack = s.stack)
    (hidle : t.kw.waiting = false → t.kw.pending = KeySet.empty ∧ t.kw.completed = none)
    (hcompleted : ∀ k, t.kw.completed = some k → t.kw.pending.has k = true)
    (hwaiting : t.kw.waiting = true → ∃ x, nextInstr s = some (.ldVxK x)) : Inv t where
  cfgWf := hcfg ▸ h.cfgWf
  memWf := hmem ▸ h.memWf
  memInside := by rw [hmem, hcfg]; exact h.memInside
  stackBound := by rw [hstack, hcfg]; exact h.stackBound
  stackEntries := by rw [hstack, hcfg]; exact h.stackEntries
  pcBound := by rw [hpc, hcfg]; exact h.pcBound
  idleEmpty := hidle
  completedIn := hcompleted
  waitingAtKey := by rw [nextInstr_congr hpc hmem hcfg]; exact hwaiting

/-- An instruction other than LD_VX_K is at the pc in Idle only. -/
theorem Inv.kw_eq_idle_of_nextInstr {s : State} (h : Inv s) {i : Instr} (hnext : nextInstr s = some i)
    (hi : ∀ x, i ≠ .ldVxK x) : s.kw = KeyWait.idle := by
  refine h.kw_eq_idle (Bool.eq_false_iff.mpr fun hw => ?_)
  obtain ⟨x, hx⟩ := h.waitingAtKey hw
  exact hi x (Option.some.inj (hnext.symm.trans hx))

/-! ### What an instruction keeps -/

theorem exec_keeps_cfg {i : Instr} {s t : State} (h : exec i s = next t) : t.cfg = s.cfg := by
  obtain ⟨-, hcfg, -⟩ := writersOfEachPieceOfState i s t h
  exact hcfg

theorem exec_keeps_memory {i : Instr} {s t : State} (h : exec i s = next t)
    (hmem : s.mem.wf ∧ ∀ p ∈ s.mem, p.1 < s.cfg.memBytes) : t.mem.wf ∧ ∀ p ∈ t.mem, p.1 < t.cfg.memBytes := by
  obtain ⟨hwf, hin⟩ := hmem
  cases exec_effect h with
  | stored _ _ bs hbs =>
    refine ⟨Memory.wf_setAll hwf _ bs, fun p hp => ?_⟩
    rcases Memory.mem_setAll hp with ⟨-, hlt⟩ | hold
    · exact Nat.lt_of_lt_of_le hlt hbs
    · exact hin p hold
  | raised | cleared | returned | jumped | called | skipped | indexLoaded | indexAdded | randomDrawn | drawn
  | timerSet | waitEntered | waitPolled | waitEnded | regsWritten => exact ⟨hwf, hin⟩

/-- An address up to 4 after an instruction inside memory is at most MEM_SIZE + 2: nothing wraps (R36). -/
theorem toNat_pc_add {s : State} (hpc : s.pc.toNat + 1 < s.cfg.memBytes) {d : Word} (hd : d.toNat ≤ 4) :
    (s.pc + d).toNat = s.pc.toNat + d.toNat := by
  have hsize := memBytes_bounds s.cfg
  rw [BitVec.toNat_add]
  omega

theorem exec_keeps_stack {i : Instr} {s t : State} (h : exec i s = next t) (hpc : s.pc.toNat + 1 < s.cfg.memBytes)
    (hstack : s.stack.length ≤ s.cfg.stackDepth ∧ ∀ w ∈ s.stack, w.toNat ≤ s.cfg.memBytes) :
    t.stack.length ≤ t.cfg.stackDepth ∧ ∀ w ∈ t.stack, w.toNat ≤ t.cfg.memBytes := by
  obtain ⟨hlen, hentries⟩ := hstack
  cases exec_effect h with
  | returned ws w hs =>
    simp only [hs, List.length_append, List.mem_append] at hlen hentries
    exact ⟨Nat.le_of_succ_le hlen, fun w' hw' => hentries w' (.inl hw')⟩
  | called nnn hroom =>
    refine ⟨by simpa using hroom, fun w hw => ?_⟩
    rcases List.mem_append.mp hw with hold | hnew
    · exact hentries w hold
    · rw [List.mem_singleton.mp hnew, toNat_pc_add hpc (by decide)]
      exact hpc
  | raised | cleared | jumped | skipped | indexLoaded | indexAdded | randomDrawn | drawn | timerSet | stored
  | waitEntered | waitPolled | waitEnded | regsWritten => exact ⟨hlen, hentries⟩

theorem exec_keeps_pcBound {i : Instr} {s t : State} (h : exec i s = next t)
    (hpc : s.pc.toNat + 1 < s.cfg.memBytes) (hentries : ∀ w ∈ s.stack, w.toNat ≤ s.cfg.memBytes) :
    t.pc.toNat ≤ t.cfg.memBytes + 2 := by
  have hadd : ∀ d : Word, d.toNat ≤ 4 → (s.pc + d).toNat ≤ s.cfg.memBytes + 2 := fun d hd => by
    rw [toNat_pc_add hpc hd]
    omega
  have hjump : ∀ nnn : BitVec 12, (nnn.zeroExtend 16).toNat ≤ s.cfg.memBytes + 2 := fun nnn => by
    have hsize := memBytes_bounds s.cfg
    have hlt := nnn.isLt
    rw [← State.jump_pc s, jump_pc_toNat]
    omega
  cases exec_effect h with
  | returned ws w hs => exact Nat.le_add_right_of_le (hentries w (by simp [hs]))
  | jumped nnn | called nnn => exact hjump nnn
  | skipped _ _ c => cases c <;> exact hadd _ (by decide)
  | raised | waitEntered | waitPolled => show s.pc.toNat ≤ s.cfg.memBytes + 2; omega
  | cleared | indexLoaded | indexAdded | randomDrawn | drawn | timerSet | stored | waitEnded | regsWritten =>
    exact hadd 2#16 (by decide)

/-- After an instruction the key wait is Idle, or an LD_VX_K is still at the pc and has entered the wait or left it
as it was (R33). -/
theorem exec_keyWait_cases {i : Instr} {s t : State} (hinv : Inv s) (hnext : nextInstr s = some i)
    (h : exec i s = next t) :
    t.kw = KeyWait.idle ∨ ((∃ x, nextInstr t = some (.ldVxK x)) ∧ (t.kw = KeyWait.entered ∨ t.kw = s.kw)) := by
  by_cases hi : ∃ x, i = .ldVxK x
  case neg =>
    obtain ⟨-, -, -, -, -, -, -, hwriter, -⟩ := writersOfEachPieceOfState i s t h
    have hkw : t.kw = s.kw := by_contra fun hne => hi (hwriter hne)
    exact .inl (hkw.trans <| hinv.kw_eq_idle_of_nextInstr hnext (not_exists.mp hi))
  case pos =>
    obtain ⟨x, rfl⟩ := hi
    rcases execLdVxK_cases x s with ⟨-, h'⟩ | ⟨-, -, h'⟩ | ⟨k, -, -, -, h'⟩ <;> cases h.symm.trans h'
    · exact .inr ⟨⟨x, (nextInstr_congr rfl rfl rfl).trans hnext⟩, .inl rfl⟩
    · exact .inr ⟨⟨x, hnext⟩, .inr rfl⟩
    · exact .inl rfl

/-- Running the instruction at the pc keeps the invariant. -/
theorem exec_keeps_inv {i : Instr} {s t : State} (hinv : Inv s) (hpc : s.pc.toNat + 1 < s.cfg.memBytes)
    (hnext : nextInstr s = some i) (h : exec i s = next t) : Inv t := by
  have hcfg : t.cfg.wf = true := exec_keeps_cfg h ▸ hinv.cfgWf
  have hmem := exec_keeps_memory h ⟨hinv.memWf, hinv.memInside⟩
  have hstack := exec_keeps_stack h hpc ⟨hinv.stackBound, hinv.stackEntries⟩
  have hbound := exec_keeps_pcBound h hpc hinv.stackEntries
  rcases exec_keyWait_cases hinv hnext h with hidle | ⟨hkey, hkw⟩
  · exact inv_of_idle hidle hcfg hmem hstack hbound
  · refine ⟨hcfg, hmem.1, hmem.2, hstack.1, hstack.2, hbound, ?idleEmpty, ?completedIn, fun _ => hkey⟩
    case idleEmpty =>
      rcases hkw with hkw | hkw <;> rw [hkw]
      · intro hw; cases hw
      · exact hinv.idleEmpty
    case completedIn =>
      rcases hkw with hkw | hkw <;> rw [hkw]
      · intro k hk; cases hk
      · exact hinv.completedIn

theorem raise_keeps_inv {s : State} (hinv : Inv s) (e : Fault) : Inv { s with fault := some e } :=
  hinv.of_frame rfl rfl rfl rfl hinv.idleEmpty hinv.completedIn hinv.waitingAtKey

/-- Settles O16: a step answers the same state, latches an error, or runs the instruction at the pc. -/
theorem stepKeepsInvariant : Obligations.StepKeepsInvariant := by
  intro s t hinv h
  rcases step_cases s with ⟨e, -, h'⟩ | ⟨-, -, -, h'⟩ | ⟨-, -, -, -, h'⟩ | ⟨i, -, hpc, hnext, h'⟩
  case inl => cases h.symm.trans h'; exact hinv
  case inr.inl => cases h.symm.trans h'; exact raise_keeps_inv hinv _
  case inr.inr.inl => cases h.symm.trans h'; exact raise_keeps_inv hinv _
  case inr.inr.inr => exact exec_keeps_inv hinv hpc hnext (h'.symm.trans h)

/-! ### Host transactions and reset -/

theorem keyDown_kw_idle {s : State} (k : KeyIdx) (hw : s.kw.waiting = false) : (keyDown k s).kw = s.kw := by
  simp [keyDown, hw]

theorem keyDown_kw_waiting {s : State} (k : KeyIdx) (hw : s.kw.waiting = true) :
    (keyDown k s).kw = { s.kw with pending := s.kw.pending.insert k } := by
  simp [keyDown, hw]

theorem keyUp_kw_pending {s : State} {k : KeyIdx} (hw : s.kw.waiting = true) (hp : s.kw.pending.has k = true) :
    (keyUp k s).kw = { s.kw with completed := some k } := by
  simp [keyUp, hw, hp]

theorem keyUp_kw_other {s : State} {k : KeyIdx} (h : ¬ (s.kw.waiting = true ∧ s.kw.pending.has k = true)) :
    (keyUp k s).kw = s.kw := by
  simp [keyUp, h]

theorem keyDown_keeps_inv {s : State} (hinv : Inv s) (k : KeyIdx) : Inv (keyDown k s) := by
  cases hw : s.kw.waiting with
  | false =>
    refine hinv.of_frame rfl rfl rfl rfl ?_ ?_ ?_ <;> rw [keyDown_kw_idle k hw]
    exacts [hinv.idleEmpty, hinv.completedIn, hinv.waitingAtKey]
  | true =>
    refine hinv.of_frame rfl rfl rfl rfl ?idle ?completed (fun _ => hinv.waitingAtKey hw) <;>
      rw [keyDown_kw_waiting k hw]
    case idle => intro hidle; rw [hw] at hidle; cases hidle
    case completed => intro j hj; simp [KeySet.has_insert, hinv.completedIn j hj]

theorem keyUp_keeps_inv {s : State} (hinv : Inv s) (k : KeyIdx) : Inv (keyUp k s) := by
  by_cases hcounts : s.kw.waiting = true ∧ s.kw.pending.has k = true
  case neg =>
    refine hinv.of_frame rfl rfl rfl rfl ?_ ?_ ?_ <;> rw [keyUp_kw_other hcounts]
    exacts [hinv.idleEmpty, hinv.completedIn, hinv.waitingAtKey]
  case pos =>
    obtain ⟨hw, hp⟩ := hcounts
    refine hinv.of_frame rfl rfl rfl rfl ?idle ?completed (fun _ => hinv.waitingAtKey hw) <;>
      rw [keyUp_kw_pending hw hp]
    case idle => intro hidle; rw [hw] at hidle; cases hidle
    case completed => intro j hj; cases hj; exact hp

theorem deliver_keeps_inv {s : State} (hinv : Inv s) (e : HostEvent) : Inv (e.deliver s) := by
  cases e with
  | keyDown k => exact keyDown_keeps_inv hinv k
  | keyUp k => exact keyUp_keeps_inv hinv k
  | tick => exact hinv.of_frame rfl rfl rfl rfl hinv.idleEmpty hinv.completedIn hinv.waitingAtKey

/-- Settles O17: at reset the key wait is Idle, memory and stack are empty and the pc is 0x0200. -/
theorem resetMeetsInvariant : Obligations.ResetMeetsInvariant :=
  inv_of_idle rfl (by decide) ⟨Memory.wf_nil, fun _ h => nomatch h⟩ ⟨Nat.zero_le _, fun _ h => nomatch h⟩ (by decide)

theorem resetAndLoad_meets_inv {s t : State} {rom : List Byte} (hcfg : s.cfg.wf = true)
    (h : resetAndLoad rom s = next t) : Inv t := by
  rcases resetAndLoad_cases rom s with ⟨hfits, h'⟩ | ⟨-, h'⟩ <;> cases h.symm.trans h'
  have hsize := memBytes_bounds s.cfg
  refine inv_of_idle rfl hcfg ⟨Memory.wf_setAll Memory.wf_nil 512 rom, fun p hp => ?inside⟩
    ⟨Nat.zero_le _, fun _ h => nomatch h⟩ ?pc
  case inside =>
    rcases Memory.mem_setAll hp with ⟨-, hlt⟩ | hold
    · exact Nat.lt_of_lt_of_le hlt hfits
    · cases hold
  case pc => show 512 ≤ s.cfg.memBytes + 2; omega

/-- Settles O18: an event touches nothing the invariant speaks of but the key wait, and a reset starts it anew. -/
theorem hostTransactionsKeepInvariant : Obligations.HostTransactionsKeepInvariant :=
  ⟨fun _ e hinv => deliver_keeps_inv hinv e, fun _ _ _ hcfg h => resetAndLoad_meets_inv hcfg h⟩

end Sys2Proof.Machine
end

section
/-! PROOFS. Runs of transactions: the model never stops, an error is final until a reset, an ended program stays
ended, and R36's bounds hold in every reachable state (60_exceptions.md R225, R231, 70_reset_and_hazards.md R252,
R257). -/

namespace Sys2Proof.Machine

open Host.Outcome

/-! ### Induction over transactions -/

theorem runTransactions_cons {tr : Transaction} {s t : State} (h : tr.apply s = next t) (ts : List Transaction) :
    runTransactions (tr :: ts) s = runTransactions ts t := by
  rw [runTransactions, h]

/-- What every admitted transaction answers with and keeps, every run of admitted transactions does. -/
theorem runTransactions_answers {P : State → Prop} {admitted : Transaction → Prop}
    (happly : ∀ (tr : Transaction) (s : State), admitted tr → P s → ∃ t, tr.apply s = next t ∧ P t)
    (ts : List Transaction) (s : State)
    (hts : ∀ tr ∈ ts, admitted tr) (hs : P s) : ∃ t, runTransactions ts s = next t ∧ P t := by
  induction ts generalizing s with
  | nil => exact ⟨s, rfl, hs⟩
  | cons tr ts ih =>
    obtain ⟨t, ht, hP⟩ := happly tr s (hts tr (by simp)) hs
    obtain ⟨u, hu, hPu⟩ := ih t (fun tr' h => hts tr' (by simp [h])) hP
    exact ⟨u, (runTransactions_cons ht ts).trans hu, hPu⟩

/-- What every transaction that answers a next state keeps, every run that answers one does. -/
theorem runTransactions_keeps {P : State → Prop}
    (happly : ∀ (tr : Transaction) (s t : State), P s → tr.apply s = next t → P t)
    {ts : List Transaction} {s t : State} (hs : P s) (h : runTransactions ts s = next t) : P t := by
  induction ts generalizing s with
  | nil => cases h; exact hs
  | cons tr ts ih =>
    rw [runTransactions] at h
    cases htr : tr.apply s with
    | next u => rw [htr] at h; exact ih (happly tr s u hs htr) h
    | fault e => rw [htr] at h; cases h
    | refused r => rw [htr] at h; cases h

/-! ### The parameters -/

theorem step_keeps_cfg {s t : State} (h : step s = next t) : t.cfg = s.cfg := by
  rcases step_cases s with ⟨e, -, h'⟩ | ⟨-, -, -, h'⟩ | ⟨-, -, -, -, h'⟩ | ⟨i, -, -, -, h'⟩
  case inl => cases h.symm.trans h'; rfl
  case inr.inl => cases h.symm.trans h'; rfl
  case inr.inr.inl => cases h.symm.trans h'; rfl
  case inr.inr.inr => exact exec_keeps_cfg (h'.symm.trans h)

theorem resetAndLoad_keeps_cfg {s t : State} {rom : List Byte} (h : resetAndLoad rom s = next t) :
    t.cfg = s.cfg := by
  rcases resetAndLoad_cases rom s with ⟨-, h'⟩ | ⟨-, h'⟩ <;> cases h.symm.trans h'
  rfl

theorem apply_keeps_cfg {tr : Transaction} {s t : State} (h : tr.apply s = next t) : t.cfg = s.cfg := by
  cases tr with
  | step => exact step_keeps_cfg h
  | event e => cases h; exact deliver_cfg e s
  | resetAndLoad rom => exact resetAndLoad_keeps_cfg h

theorem apply_keeps_inv {tr : Transaction} {s t : State} (hinv : Inv s) (h : tr.apply s = next t) : Inv t := by
  cases tr with
  | step => exact stepKeepsInvariant s t hinv h
  | event e => cases h; exact deliver_keeps_inv hinv e
  | resetAndLoad rom => exact resetAndLoad_meets_inv hinv.cfgWf h

/-! ### The model never stops -/

theorem resetAndLoad_answers {s : State} {rom : List Byte} (h : rom.length ≤ s.cfg.memBytes - 512) :
    ∃ t, resetAndLoad rom s = next t := by
  have hsize := memBytes_bounds s.cfg
  rcases resetAndLoad_cases rom s with ⟨-, h'⟩ | ⟨hlong, -⟩
  · exact ⟨_, h'⟩
  · omega

/-- Settles O12: the parameters, and with them the room for an image, are the same in every state of the run. -/
theorem transactionsAnswerNext : Obligations.TransactionsAnswerNext := by
  intro s ts hroms
  have happly : ∀ (tr : Transaction) (u : State),
      (∀ rom, tr = .resetAndLoad rom → rom.length ≤ s.cfg.memBytes - 0x200) → u.cfg = s.cfg →
      ∃ t, tr.apply u = next t ∧ t.cfg = s.cfg := by
    intro tr u hrom hcfg
    have hanswers : ∃ t, tr.apply u = next t := by
      cases tr with
      | step => exact step_next u
      | event e => exact ⟨_, rfl⟩
      | resetAndLoad rom => exact resetAndLoad_answers (hcfg ▸ hrom rom rfl)
    obtain ⟨t, ht⟩ := hanswers
    exact ⟨t, ht, (apply_keeps_cfg ht).trans hcfg⟩
  obtain ⟨t, ht, -⟩ := runTransactions_answers happly ts s (fun tr htr rom h => hroms rom (h ▸ htr)) rfl
  exact ⟨t, ht⟩

/-! ### After an error -/

/-- What host events may have changed between two states (R225). -/
def DiffersByEvents (s t : State) : Prop := t = { s with keys := t.keys, kw := t.kw, dt := t.dt }

theorem DiffersByEvents.refl (s : State) : DiffersByEvents s s := rfl

theorem DiffersByEvents.deliver {s t : State} (h : DiffersByEvents s t) (e : HostEvent) :
    DiffersByEvents s (e.deliver t) := by
  have hframe := deliver_frame e t
  rw [h] at hframe
  rw [h]
  exact hframe

/-- Settles O10: a step answers the state it found, and an event keeps the latched error. -/
theorem faultedMachineIsFrozen : Obligations.FaultedMachineIsFrozen := by
  intro s e hf
  have hstep : step s = next s := step_faulted hf
  have happly : ∀ (tr : Transaction) (u : State), (∀ rom, tr ≠ .resetAndLoad rom) →
      u.fault = some e ∧ DiffersByEvents s u → ∃ t, tr.apply u = next t ∧ t.fault = some e ∧ DiffersByEvents s t := by
    rintro tr u hreset ⟨hu, hframe⟩
    cases tr with
    | step => exact ⟨u, step_faulted hu, hu, hframe⟩
    | event ev => exact ⟨_, rfl, (deliver_fault ev u).trans hu, hframe.deliver ev⟩
    | resetAndLoad rom => exact absurd rfl (hreset rom)
  refine ⟨hstep, by simp [stepOutput, hstep, hf], fun ts hts => ?_⟩
  obtain ⟨t, ht, -, hframe⟩ := runTransactions_answers happly ts s hts ⟨hf, .refl s⟩
  exact ⟨t, ht, hframe⟩

/-! ### After the end of the program -/

/-- A jump to itself changes nothing (R257). -/
theorem Ended.step_self {s : State} (h : Ended s) : step s = next s := by
  obtain ⟨hf, nnn, hnext, hself⟩ := h
  calc step s = next (s.jump nnn) := step_run hf hnext
    _ = next s := by rw [State.jump, hself]

theorem nextInstr_deliver (e : HostEvent) (s : State) : nextInstr (e.deliver s) = nextInstr s :=
  nextInstr_congr (deliver_pc e s) (deliver_mem e s) (deliver_cfg e s)

theorem Ended.deliver {s : State} (h : Ended s) (e : HostEvent) : Ended (e.deliver s) := by
  obtain ⟨hf, nnn, hnext, hself⟩ := h
  exact ⟨(deliver_fault e s).trans hf, nnn, (nextInstr_deliver e s).trans hnext, hself.trans (deliver_pc e s).symm⟩

/-- In Idle an event changes the key latch and DT, and nothing else (R200 to R202). -/
theorem deliver_frame_idle (e : HostEvent) {s : State} (hw : s.kw.waiting = false) :
    e.deliver s = { s with keys := (e.deliver s).keys, dt := (e.deliver s).dt } := by
  cases e <;> simp [HostEvent.deliver, keyDown, keyUp, tickDelayTimer, hw]

/-- Settles O32: steps change nothing, and the key wait is Idle, so that events change the key latch and DT alone. -/
theorem endedProgramStaysEnded : Obligations.EndedProgramStaysEnded := by
  intro s hinv hended
  refine ⟨hended.step_self, fun ts hts => ?_⟩
  have hidle : s.kw.waiting = false := by
    obtain ⟨-, nnn, hnext, -⟩ := hended
    rw [hinv.kw_eq_idle_of_nextInstr hnext (by simp), KeyWait.idle]
  have happly : ∀ (tr : Transaction) (u : State), (∀ rom, tr ≠ .resetAndLoad rom) →
      Ended u ∧ u = { s with keys := u.keys, dt := u.dt } →
      ∃ t, tr.apply u = next t ∧ Ended t ∧ t = { s with keys := t.keys, dt := t.dt } := by
    rintro tr u hreset ⟨hu, hframe⟩
    cases tr with
    | step => exact ⟨u, hu.step_self, hu, hframe⟩
    | event e =>
      have hw : u.kw.waiting = false := by rw [hframe]; exact hidle
      refine ⟨_, rfl, hu.deliver e, (deliver_frame_idle e hw).trans ?_⟩
      rw [hframe]
    | resetAndLoad rom => exact absurd rfl (hreset rom)
  exact runTransactions_answers happly ts s hts ⟨hended, rfl⟩

/-! ### Reset and reachable states -/

/-- Settles O19: the invariant holds after the reset and is kept by every transaction. -/
theorem reachableStatesAreBounded : Obligations.ReachableStatesAreBounded := by
  intro s₀ s t rom ts hcfg hload hrun
  have hkept : Inv t ∧ t.cfg = s₀.cfg := by
    refine runTransactions_keeps (P := fun u => Inv u ∧ u.cfg = s₀.cfg) ?_
      ⟨resetAndLoad_meets_inv hcfg hload, resetAndLoad_keeps_cfg hload⟩ hrun
    rintro tr u u' ⟨hinv, hu⟩ happly
    exact ⟨apply_keeps_inv hinv happly, (apply_keeps_cfg happly).trans hu⟩
  obtain ⟨hinv, hsame⟩ := hkept
  refine ⟨hsame, hinv.stackBound, hinv.stackEntries, hinv.pcBound, fun k hk => ⟨?waiting, hinv.completedIn k hk⟩,
    fun hw k => ?pending, hinv.waitingAtKey⟩
  case waiting =>
    refine Bool.not_eq_false _ |>.mp fun hw => ?_
    rw [(hinv.idleEmpty hw).2] at hk
    cases hk
  case pending => rw [(hinv.idleEmpty hw).1, KeySet.has_empty]

/-- Settles O20: the loaded machine is the one of power-on, with the image's bytes stored into empty memory. -/
theorem resetAndLoadGivesResetValues : Obligations.ResetAndLoadGivesResetValues := by
  intro s rom
  have hsize := memBytes_bounds s.cfg
  have hread := Memory.get_setAll Memory.wf_nil 512 rom
  rcases resetAndLoad_cases rom s with ⟨hfits, h⟩ | ⟨hlong, h⟩
  · refine ⟨fun _ => ⟨_, h, ?_⟩, fun hlong => by omega⟩
    have hregs : ∀ r : RegIdx, (Vector.replicate 16 0#8)[r] = 0#8 := fun r => by simp
    have himage : ∀ j, (hj : j < rom.length) → (Memory.setAll [] 512 rom).get (512 + j) = rom[j] := fun j hj => by
      simp [hread, hj]
    have hblank : ∀ a, a < 512 ∨ 512 + rom.length ≤ a → (Memory.setAll [] 512 rom).get a = 0#8 := fun a ha => by
      rw [hread, dif_neg (by omega)]
      rfl
    exact ⟨hregs, rfl, rfl, rfl, Framebuffer.pixel_blank, rfl, KeySet.has_empty, rfl, KeySet.has_empty, rfl, rfl, rfl,
      rfl, rfl, himage, hblank⟩
  · exact ⟨fun hfits => by omega, fun _ => h⟩

end Sys2Proof.Machine
end

section
/-! PROOFS. Control flow: jump, call and return, the compare skips on registers, and nested calls
(40_control_flow.md R101 to R103, R106, R107). -/

namespace Sys2Proof.Machine

open Host.Outcome

theorem exec_jp (nnn : BitVec 12) (s : State) : exec (.jp nnn) s = next (s.jump nnn) := rfl

/-- Settles O25: JP answers `s.jump nnn`, which writes the pc alone. -/
theorem jumpSetsPc : Obligations.JumpSetsPc :=
  fun nnn s => ⟨s.jump nnn, exec_jp nnn s, jump_pc_toNat s nnn, fun _ => by rw [State.jump_mem], rfl⟩

theorem exec_seReg (x y : RegIdx) (s : State) : exec (.seReg x y) s = next (s.skipIf (s.V x == s.V y)) := rfl

theorem exec_sneReg (x y : RegIdx) (s : State) : exec (.sneReg x y) s = next (s.skipIf (s.V x != s.V y)) := rfl

/-- Settles O30: both instructions are skips, on `V[x] == V[y]` and on `V[x] != V[y]`. -/
theorem skipOnRegisters : Obligations.SkipOnRegisters := by
  intro x y s
  refine ⟨?equal, ?different⟩
  case equal => exact exec_skipIf_spec (exec_seReg x y s) beq_iff_eq
  case different => exact exec_skipIf_spec (exec_sneReg x y s) bne_iff_ne

/-- Settles O26: with room CALL pushes and jumps; on a full stack it raises, with its own encoding. -/
theorem callPushesReturnAddressOrOverflows : Obligations.CallPushesReturnAddressOrOverflows := by
  intro nnn s
  refine ⟨fun hroom => ?room, fun hfull => ?full⟩
  case room =>
    have hpc := jump_pc_toNat (s.push (s.pc + 2#16)) nnn
    exact ⟨_, exec_call_of_room nnn hroom, rfl, hpc, fun _ => by rw [State.jump_mem, State.push_mem], rfl⟩
  case full => exact ⟨encode (.call nnn), toNat_layoutNNN 2#4 nnn, exec_call_of_full nnn hfull⟩

/-- Settles O27: RET pops the newest entry, or raises with its own word. -/
theorem returnPopsIntoPcOrUnderflows : Obligations.ReturnPopsIntoPcOrUnderflows :=
  fun _ => ⟨fun _ _ hs => exec_ret_of_append hs, fun hs => exec_ret_of_empty hs⟩

/-! ### Nested calls -/

/-- A step leaves the stack as it was, pushes one entry or pops one. -/
theorem step_stack_cases {s t : State} (h : step s = next t) :
    t.stack = s.stack ∨ (∃ w, t.stack = s.stack ++ [w]) ∨ ∃ w, s.stack = t.stack ++ [w] := by
  rcases step_cases s with ⟨e, -, h'⟩ | ⟨-, -, -, h'⟩ | ⟨-, -, -, -, h'⟩ | ⟨i, -, -, -, h'⟩
  case inl => cases h.symm.trans h'; exact .inl rfl
  case inr.inl => cases h.symm.trans h'; exact .inl rfl
  case inr.inr.inl => cases h.symm.trans h'; exact .inl rfl
  case inr.inr.inr =>
    cases exec_effect (h'.symm.trans h) with
    | returned ws w hs => exact .inr (.inr ⟨w, hs⟩)
    | called => exact .inr (.inl ⟨_, rfl⟩)
    | raised | cleared | jumped | skipped | indexLoaded | indexAdded | randomDrawn | drawn | timerSet | stored
    | waitEntered | waitPolled | waitEnded | regsWritten => exact .inl rfl

/-- A step keeps the oldest entries as long as the stack stays as long as they are. -/
theorem step_keeps_stack_prefix {s t : State} {ws : List Word} (h : step s = next t) (hs : ws <+: s.stack)
    (hlen : ws.length ≤ t.stack.length) : ws <+: t.stack := by
  rcases step_stack_cases h with hsame | ⟨w, hpush⟩ | ⟨w, hpop⟩
  · rwa [hsame]
  · rw [hpush]
    exact hs.trans (List.prefix_append _ _)
  · rw [hpop] at hs
    exact List.prefix_of_prefix_length_le hs (List.prefix_append _ _) hlen

/-- The same for any number of steps. -/
theorem runSteps_keeps_stack_prefix {k : Nat} {t u : State} (h : runSteps k t = next u)
    (hlen : ∀ j ≤ k, ∀ m, runSteps j t = next m → t.stack.length ≤ m.stack.length) : t.stack <+: u.stack := by
  induction k generalizing u with
  | zero =>
    cases h
    exact List.prefix_refl _
  | succ k ih =>
    obtain ⟨m, hm, hstep⟩ := runSteps_last h
    have hprefix : t.stack <+: m.stack := ih hm fun j hj => hlen j (Nat.le_succ_of_le hj)
    exact step_keeps_stack_prefix hstep hprefix (hlen (k + 1) le_rfl u h)

/-- Settles O28: at the call's own depth the stack is what the call left, the return address on top. -/
theorem nestedCallsReturnToCaller : Obligations.NestedCallsReturnToCaller := by
  intro s t u nnn k hroom hcall hrun hdepth hlen
  have hstack : u.stack = t.stack := ((runSteps_keeps_stack_prefix hrun hdepth).eq_of_length hlen.symm).symm
  cases hcall.symm.trans (exec_call_of_room nnn hroom)
  exact ⟨_, exec_ret_of_append hstack, rfl, rfl⟩

end Sys2Proof.Machine
end

section
/-! PROOFS. Arithmetic with flags, shifts, the random byte and I (41_alu.md R127 to R133, R120, 42_index_memory.md
R151). -/

namespace Sys2Proof.Machine

open Host.Outcome

/-! ### Two writes of registers -/

/-- Writing VF and then V[x] and going on is invisible except in the two registers and the pc. -/
theorem setV_setV_advance_onlyRegsAndPc (s : State) (x : RegIdx) (flag b : Byte) :
    OnlyRegsAndPc s ((s.setV VF flag).setV x b).advance (fun r => r = x ∨ r = VF) where
  regs r hr := by
    obtain ⟨hx, hVF⟩ := not_or.mp hr
    rw [V_advance, V_setV_other _ b hx, V_setV_other s flag hVF]
  bytes _ := by rw [State.advance_mem, State.setV_mem, State.setV_mem]
  rest := rfl

/-- What every instruction whose meaning is `writeFlagThenV` does: for x = 0xF the result is written last (R120). -/
theorem exec_writeFlagThenV_spec {i : Instr} {s : State} {x : RegIdx} {flag b : Byte}
    (hexec : exec i s = writeFlagThenV x flag b s) :
    ∃ t, exec i s = next t ∧ t.V x = b ∧ (x ≠ VF → t.V VF = flag) ∧ t.pc.toNat = (s.pc.toNat + 2) % 65536 ∧
      OnlyRegsAndPc s t (fun r => r = x ∨ r = VF) := by
  refine ⟨((s.setV VF flag).setV x b).advance, hexec, ?result, fun hx => ?flag, advance_pc_toNat _,
    setV_setV_advance_onlyRegsAndPc s x flag b⟩
  case result => rw [V_advance, V_setV_same]
  case flag => rw [V_advance, V_setV_other _ b hx.symm, V_setV_same]

theorem exec_addReg (x y : RegIdx) (s : State) :
    exec (.addReg x y) s = writeFlagThenV x (carryFlag (s.V x) (s.V y)) (sumByte (s.V x) (s.V y)) s := rfl

theorem exec_sub (x y : RegIdx) (s : State) :
    exec (.sub x y) s = writeFlagThenV x (noBorrowFlag (s.V x) (s.V y)) (diffByte (s.V x) (s.V y)) s := rfl

theorem exec_subn (x y : RegIdx) (s : State) :
    exec (.subn x y) s = writeFlagThenV x (noBorrowFlag (s.V y) (s.V x)) (diffByte (s.V y) (s.V x)) s := rfl

/-- Settles O36: ADD_REG writes the carry to VF and then the sum modulo 256 to V[x]. -/
theorem addWithCarry : Obligations.AddWithCarry := by
  intro x y s
  obtain ⟨t, hexec, hV, hflag, hpc, hframe⟩ := exec_writeFlagThenV_spec (exec_addReg x y s)
  exact ⟨t, hexec, by rw [hV, sumByte_toNat], fun hx => by rw [hflag hx, carryFlag_eq], hpc, hframe⟩

/-- Settles O37: SUB and SUBN write "no borrow" to VF and then the difference modulo 256 to V[x]. -/
theorem subtractWithNoBorrow : Obligations.SubtractWithNoBorrow := by
  intro x y s
  refine ⟨?sub, ?subn⟩
  case sub =>
    obtain ⟨t, hexec, hV, hflag, hpc, hframe⟩ := exec_writeFlagThenV_spec (exec_sub x y s)
    exact ⟨t, hexec, by rw [hV, diffByte_toNat], fun hx => by rw [hflag hx, noBorrowFlag_eq], hpc, hframe⟩
  case subn =>
    obtain ⟨t, hexec, hV, hflag, hpc, hframe⟩ := exec_writeFlagThenV_spec (exec_subn x y s)
    exact ⟨t, hexec, by rw [hV, diffByte_toNat], fun hx => by rw [hflag hx, noBorrowFlag_eq], hpc, hframe⟩

/-! ### Shifts -/

/-- What every instruction whose meaning is `writeShifted` does: with x = 0xF it is the flag that is shifted (R120). -/
theorem exec_writeShifted_spec {i : Instr} {s : State} {x : RegIdx} {t flag : Byte} {shift : Byte → Byte}
    (hexec : exec i s = writeShifted x t flag shift s) :
    ∃ u, exec i s = next u ∧ (x ≠ VF → u.V x = shift t ∧ u.V VF = flag) ∧ (x = VF → u.V VF = shift flag) ∧
      u.pc.toNat = (s.pc.toNat + 2) % 65536 ∧ OnlyRegsAndPc s u (fun r => r = x ∨ r = VF) := by
  have hframe := setV_setV_advance_onlyRegsAndPc (s.setV x t) x flag (shift (((s.setV x t).setV VF flag).V x))
  refine ⟨_, hexec, fun hx => ⟨?result, ?flag⟩, fun hx => ?onVF, advance_pc_toNat _, fun r hr => ?regs,
    hframe.bytes, hframe.rest⟩
  case result => rw [V_advance, V_setV_same, V_setV_other _ flag hx, V_setV_same]
  case flag => rw [V_advance, V_setV_other _ _ (Ne.symm hx), V_setV_same]
  case onVF => rw [hx, V_advance, V_setV_same, V_setV_same]
  case regs => exact (hframe.regs r hr).trans (V_setV_other s t fun hx => hr (.inl hx))

theorem exec_shr (x y : RegIdx) (s : State) :
    exec (.shr x y) s = writeShifted x (s.V y) (lowBitFlag (s.V y)) shiftRightByte s := rfl

theorem exec_shl (x y : RegIdx) (s : State) :
    exec (.shl x y) s = writeShifted x (s.V y) (highBitFlag (s.V y)) shiftLeftByte s := rfl

theorem shiftRightByte_toNat (b : Byte) : (shiftRightByte b).toNat = b.toNat / 2 := by
  rw [shiftRightByte, BitVec.toNat_ushiftRight, Nat.shiftRight_eq_div_pow, pow_one]

theorem lowBitFlag_toNat (b : Byte) : (lowBitFlag b).toNat = b.toNat % 2 := by
  rw [lowBitFlag, BitVec.toNat_and]
  exact Nat.and_one_is_mod b.toNat

theorem shiftLeftByte_toNat (b : Byte) : (shiftLeftByte b).toNat = b.toNat * 2 % 256 := by
  rw [shiftLeftByte, BitVec.toNat_shiftLeft, Nat.shiftLeft_eq, pow_one]

theorem highBitFlag_toNat (b : Byte) : (highBitFlag b).toNat = b.toNat / 128 := by
  rw [highBitFlag, BitVec.toNat_ushiftRight, Nat.shiftRight_eq_div_pow]

/-- Settles O38: SHR halves V[y]; with x = 0xF it halves the bit that it moved out. -/
theorem shiftRight : Obligations.ShiftRight := by
  intro x y s
  obtain ⟨t, hexec, hother, hVF, hpc, hframe⟩ := exec_writeShifted_spec (exec_shr x y s)
  refine ⟨t, hexec, fun hx => ?other, fun hx => ?onVF, hpc, hframe⟩
  case other =>
    obtain ⟨hV, hflag⟩ := hother hx
    rw [hV, hflag]
    exact ⟨shiftRightByte_toNat _, lowBitFlag_toNat _⟩
  case onVF =>
    apply BitVec.eq_of_toNat_eq
    rw [hVF hx, shiftRightByte_toNat, lowBitFlag_toNat]
    exact Nat.div_eq_of_lt (Nat.mod_lt _ (by decide))

/-- Settles O39: SHL doubles V[y]; with x = 0xF it doubles the bit that it moved out. -/
theorem shiftLeft : Obligations.ShiftLeft := by
  intro x y s
  obtain ⟨t, hexec, hother, hVF, hpc, hframe⟩ := exec_writeShifted_spec (exec_shl x y s)
  refine ⟨t, hexec, fun hx => ?other, fun hx => ?onVF, hpc, hframe⟩
  case other =>
    obtain ⟨hV, hflag⟩ := hother hx
    rw [hV, hflag]
    exact ⟨shiftLeftByte_toNat _, highBitFlag_toNat _⟩
  case onVF =>
    have hlt := (s.V y).isLt
    rw [hVF hx, shiftLeftByte_toNat, highBitFlag_toNat]
    omega

/-! ### The random byte and I -/

theorem exec_rnd (x : RegIdx) (nn : Byte) (s : State) :
    exec (.rnd x nn) s = writeV x (Config.randByte s.draws &&& nn) { s with draws := s.draws + 1 } := rfl

/-- A mask lets no bit through that it has clear. -/
theorem and_mask_and_not (b nn : Byte) : b &&& nn &&& ~~~nn = 0#8 := by
  rw [BitVec.and_assoc, BitVec.and_not_self]
  exact BitVec.and_zero

/-- Settles O40: RND writes the masked byte in the state that has used the byte up. -/
theorem randomIsMaskedFreeByte : Obligations.RandomIsMaskedFreeByte := by
  intro x nn s
  have hframe := setV_advance_onlyRegsAndPc { s with draws := s.draws + 1 } x (Config.randByte s.draws &&& nn)
  have hV : ((State.setV { s with draws := s.draws + 1 } x (Config.randByte s.draws &&& nn)).advance).V x =
      Config.randByte s.draws &&& nn := by rw [V_advance, V_setV_same]
  refine ⟨_, exec_rnd x nn s, hV, ?mask, rfl, advance_pc_toNat _, hframe.regs, hframe.bytes, rfl⟩
  case mask => rw [hV, and_mask_and_not]

theorem exec_addI (x : RegIdx) (s : State) :
    exec (.addI x) s = next { s with i := s.i + (s.V x).zeroExtend 16 }.advance := rfl

/-- Settles O42: ADD_I writes the 16-bit sum to I. -/
theorem addToIndex : Obligations.AddToIndex := by
  intro x s
  obtain ⟨t, hexec, hi, hpc, hframe⟩ := exec_writeI_spec (exec_addI x s)
  have hvalue : t.i.toNat = (s.i.toNat + (s.V x).toNat) % 65536 := by
    rw [hi, BitVec.toNat_add, BitVec.toNat_setWidth_of_le (by decide)]
  exact ⟨t, hexec, hvalue, hpc, hframe⟩

end Sys2Proof.Machine
end

section
/-! PROOFS. Data accesses at I: decimal digits, blocks of registers, and a fetch of what was stored
(42_index_memory.md R152 to R155, 20_memory.md R60). -/

namespace Sys2Proof.Machine

open Host.Outcome

/-- What every instruction that stores the bytes `bs` from I on and goes on does. -/
theorem exec_store_spec {i : Instr} {s : State} {bs : List Byte} (hwf : s.mem.wf)
    (hexec : exec i s = next { s with mem := s.mem.setAll (s.dataAddr 0) bs }.advance) :
    ∃ t, exec i s = next t ∧ (∀ k, (hk : k < bs.length) → t.mem.get (s.dataAddr k) = bs[k]) ∧
      t.pc.toNat = (s.pc.toNat + 2) % 65536 ∧ OnlyBytesAndPc s t (s.dataAddr 0) bs.length := by
  have hread := Memory.get_setAll hwf (s.dataAddr 0) bs
  refine ⟨_, hexec, fun k hk => ?stored, advance_pc_toNat _, fun a ha => ?other, rfl⟩
  case stored =>
    have hsub : s.dataAddr k - s.dataAddr 0 = k := Nat.add_sub_cancel_left ..
    have hin : s.dataAddr 0 ≤ s.dataAddr k ∧ s.dataAddr k - s.dataAddr 0 < bs.length :=
      ⟨Nat.le_add_right .., by rw [hsub]; exact hk⟩
    rw [State.advance_mem, hread, dif_pos hin]
    simp only [hsub]
  case other => rw [State.advance_mem, hread, dif_neg (by omega)]

theorem toNat_decimalDigits (b : Byte) (k : Nat) (hk : k < 3) :
    (decimalDigits b)[k].toNat = b.toNat / 10 ^ (2 - k) % 10 := by
  have hlt := b.isLt
  match k, hk with
  | 0, _ => simp [decimalDigits]; omega
  | 1, _ => simp [decimalDigits]; omega
  | 2, _ => simp [decimalDigits]; omega

/-- Settles O43: the three bytes stored are the hundreds, the tens and the ones of V[x]. -/
theorem storeDecimalDigits : Obligations.StoreDecimalDigits := by
  intro x s hwf hlast
  have hlt := (s.V x).isLt
  obtain ⟨t, hexec, hbytes, hpc, hframe⟩ := exec_store_spec hwf (exec_bcd_inside x hlast)
  have hdigit : ∀ k < 3, (t.mem.get (s.dataAddr k)).toNat = (s.V x).toNat / 10 ^ (2 - k) % 10 := fun k hk => by
    rw [hbytes k hk, toNat_decimalDigits _ k hk]
  have hundreds : (s.V x).toNat / 100 % 10 = (s.V x).toNat / 100 := by omega
  exact ⟨t, hexec, (hdigit 0 (by decide)).trans hundreds, hdigit 1 (by decide),
    (hdigit 2 (by decide)).trans (by rw [pow_zero, Nat.div_one]), hpc, hframe⟩

/-- Settles O44: the bytes stored are V0 to V[x], in ascending order. -/
theorem storeRegisters : Obligations.StoreRegisters := by
  intro x s hwf hlast
  obtain ⟨t, hexec, hbytes, hpc, hframe⟩ := exec_store_spec hwf (exec_stm_inside hlast)
  rw [length_regsUpTo] at hframe
  refine ⟨t, hexec, fun r hr => ?_, hpc, hframe⟩
  have hlt : r.val < (s.regsUpTo x).length := by rw [length_regsUpTo]; exact Nat.lt_succ_of_le hr
  rw [hbytes r.val hlt, getElem_regsUpTo]

/-- Settles O45: register r receives byte r of those read, and the registers above x receive none. -/
theorem loadRegisters : Obligations.LoadRegisters := by
  intro x s hlast
  have hload := getElem_loadRegs (s.mem.getAll (s.dataAddr 0) (x.val + 1)) s.v 0
  refine ⟨_, exec_ldm_inside hlast, fun r hr => ?loaded, advance_pc_toNat _, fun r hr => ?kept, fun _ => rfl, rfl⟩
  case loaded =>
    have hin : 0 ≤ r.val ∧ r.val - 0 < (s.mem.getAll (s.dataAddr 0) (x.val + 1)).length := by
      rw [Memory.length_getAll]
      exact ⟨Nat.zero_le _, Nat.lt_succ_of_le hr⟩
    refine (hload r.val r.isLt).trans ?_
    rw [dif_pos hin, Memory.getElem_getAll]
    rfl
  case kept =>
    have hout : x.val < r.val := Nat.lt_of_not_le hr
    refine (hload r.val r.isLt).trans (dif_neg ?_)
    rw [Memory.length_getAll]
    omega

/-- Settles O47: the fetch reads memory, where the two bytes now stand. -/
theorem storeIsSeenByNextFetch : Obligations.StoreIsSeenByNextFetch := by
  intro x s t j r₁ r₂ hwf hlast hexec hpc h₁ h₂ hx
  obtain ⟨t', hexec', hbytes, -, -⟩ := storeRegisters x s hwf hlast
  cases hexec.symm.trans hexec'
  have hx₁ : r₁ ≤ x := (Fin.le_def.mpr (by omega)).trans hx
  have hhi : t.mem.get t.pc.toNat = s.V r₁ := by
    rw [hpc, ← h₁]
    exact hbytes r₁ hx₁
  have hlo : t.mem.get (t.pc.toNat + 1) = s.V r₂ := by
    rw [hpc, ← hbytes r₂ hx, h₂]
    rfl
  have hinside : t.pc.toNat + 1 < t.cfg.memBytes := by
    have hcfg : t.cfg = s.cfg := exec_keeps_cfg hexec
    have hle : r₂.val ≤ x.val := hx
    rw [hpc, hcfg]
    unfold State.dataAddr at hlast ⊢
    omega
  rw [fetch_ok hinside, wordAtPc, hhi, hlo]

end Sys2Proof.Machine
end

section
/-! PROOFS. The display: clearing, drawing a sprite, drawing it twice, and the two edge policies (43_display.md R170 to
R177). -/

namespace Sys2Proof.Machine

open Host.Outcome

theorem exec_cls (s : State) :
    exec .cls s = next { s with fb := Framebuffer.blank }.notifyDisplay.advance := rfl

/-- Settles O48: CLS answers the state with the blank framebuffer and one event more. -/
theorem clearScreen : Obligations.ClearScreen :=
  fun s => ⟨_, exec_cls s, Framebuffer.pixel_blank, rfl, advance_pc_toNat _, fun _ => rfl, rfl⟩

/-! ### Drawing a sprite -/

/-- The pixels that a sprite covers are the targets of its bits (R171, R173). -/
theorem covers_iff_mem_spriteTargets {s : State} {x y : RegIdx} {n : BitVec 4} {r : Fin 32} {c : Fin 64} :
    Covers s x y n r c ↔ (r, c) ∈ spriteTargets s.cfg.edgePolicy (s.V x).toNat (s.V y).toNat
      (s.mem.getAll (s.dataAddr 0) n.toNat) := by
  have hlen : (s.mem.getAll (s.dataAddr 0) n.toNat).length = n.toNat := Memory.length_getAll ..
  rw [mem_spriteTargets, Covers]
  refine exists_congr fun row => ⟨?_, ?_⟩
  · rintro ⟨col, hrow, hcol, hbit, hland⟩
    refine ⟨hlen.symm ▸ hrow, col, hcol, by rw [Memory.getElem_getAll]; exact hbit, ?_⟩
    cases hp : s.cfg.edgePolicy <;> rw [hp] at hland
    · exact place_clip.mpr hland
    · exact place_wrap.mpr hland
  · rintro ⟨hrow, col, hcol, hbit, hplace⟩
    rw [Memory.getElem_getAll] at hbit
    refine ⟨col, hlen ▸ hrow, hcol, hbit, ?_⟩
    cases hp : s.cfg.edgePolicy <;> rw [hp] at hplace
    · exact place_clip.mp hplace
    · exact place_wrap.mp hplace

theorem sprite_inside {s : State} {n : Nat} (h : ∀ k < n, s.dataAddr k < s.cfg.memBytes) :
    n = 0 ∨ s.dataAddr 0 + n ≤ s.cfg.memBytes := by
  rcases Nat.eq_zero_or_pos n with hzero | hpos
  · exact .inl hzero
  · have hlast := h (n - 1) (Nat.sub_lt hpos Nat.one_pos)
    unfold State.dataAddr at hlast ⊢
    omega

/-- A sprite inverts its targets (R171). -/
theorem pixel_drawSprite (x y : RegIdx) (s : State) {sprite : List Byte} (hlen : sprite.length ≤ 32) (r : Fin 32)
    (c : Fin 64) : (drawSprite x y s sprite).fb.pixel r c = (s.fb.pixel r c ^^
      decide ((r, c) ∈ spriteTargets s.cfg.edgePolicy (s.V x).toNat (s.V y).toNat sprite)) :=
  (drawRows_spec _ _ _ sprite hlen _).1 r c

/-- VF is 1 when a target was on, else 0 (R174). -/
theorem VF_drawSprite (x y : RegIdx) (s : State) {sprite : List Byte} (hlen : sprite.length ≤ 32) :
    (drawSprite x y s sprite).V VF = flagByte (decide
      (∃ q ∈ spriteTargets s.cfg.edgePolicy (s.V x).toNat (s.V y).toNat sprite, s.fb.pixel q.1 q.2 = true)) := by
  have hhit := (drawRows_spec s.cfg.edgePolicy (s.V x).toNat (s.V y).toNat sprite hlen { fb := s.fb, hit := false }).2
  refine (V_setV_same s VF _).trans (congrArg flagByte ?_)
  rw [Bool.eq_iff_iff, decide_eq_true_iff]
  exact hhit.trans (or_iff_right Bool.false_ne_true)

/-- Settles O49: the sprite's pixels are inverted once each, and a collision is one that was on. -/
theorem drawXorsTheSprite : Obligations.DrawXorsTheSprite := by
  intro x y n s hin
  have hlen : (s.mem.getAll (s.dataAddr 0) n.toNat).length ≤ 32 := by
    rw [Memory.length_getAll]
    omega
  have hpixel := pixel_drawSprite x y s hlen
  have hVF := VF_drawSprite x y s hlen
  have hcollision : (∃ r c, Covers s x y n r c ∧ s.fb.pixel r c = true) ↔
      ∃ q ∈ spriteTargets s.cfg.edgePolicy (s.V x).toNat (s.V y).toNat (s.mem.getAll (s.dataAddr 0) n.toNat),
        s.fb.pixel q.1 q.2 = true := by
    simp only [Prod.exists, covers_iff_mem_spriteTargets]
  refine ⟨_, exec_drw_inside x y (sprite_inside hin), fun r c hc => ?covered, fun r c hc => ?kept, fun hon => ?one,
    fun hoff => ?zero, rfl, advance_pc_toNat _, fun r hr => V_drawSprite_other x y s _ hr, fun _ => rfl, rfl⟩
  case covered => exact (hpixel r c).trans (by simp [covers_iff_mem_spriteTargets.mp hc])
  case kept => exact (hpixel r c).trans (by simp [covers_iff_mem_spriteTargets.not.mp hc])
  case one => exact hVF.trans (by rw [decide_eq_true (hcollision.mp hon)]; rfl)
  case zero => exact hVF.trans (by rw [decide_eq_false (hcollision.not.mp hoff)]; rfl)

/-! ### Drawing twice -/

theorem covers_congr {s t : State} {x y : RegIdx} (hi : t.i = s.i) (hmem : t.mem = s.mem) (hcfg : t.cfg = s.cfg)
    (hx : t.V x = s.V x) (hy : t.V y = s.V y) (n : BitVec 4) (r : Fin 32) (c : Fin 64) :
    Covers t x y n r c ↔ Covers s x y n r c := by
  simp only [covers_iff_mem_spriteTargets, State.dataAddr, hi, hmem, hcfg, hx, hy]

/-- Settles O50: the second draw covers the same pixels and meets each inverted. -/
theorem drawingTwiceRestoresTheScreen : Obligations.DrawingTwiceRestoresTheScreen := by
  intro x y n s hx hy hin
  obtain ⟨t, ht, hinv, hkeep, -, -, -, -, hregs, -, hframe⟩ := drawXorsTheSprite x y n s hin
  have hi : t.i = s.i := by rw [hframe]
  have hmem : t.mem = s.mem := by rw [hframe]
  have hcfg : t.cfg = s.cfg := by rw [hframe]
  have hin' : ∀ k < n.toNat, t.dataAddr k < t.cfg.memBytes := by simpa only [State.dataAddr, hi, hcfg] using hin
  obtain ⟨u, hu, hinv', hkeep', hone, hzero, -⟩ := drawXorsTheSprite x y n t hin'
  simp only [covers_congr hi hmem hcfg (hregs x hx) (hregs y hy)] at hinv' hkeep' hone hzero
  have hswap : (∃ r c, Covers s x y n r c ∧ t.fb.pixel r c = true) ↔
      ∃ r c, Covers s x y n r c ∧ s.fb.pixel r c = false :=
    exists_congr fun r => exists_congr fun c => and_congr_right fun hc => by simp [hinv r c hc]
  refine ⟨t, u, ht, hu, Framebuffer.ext_pixel fun r c => ?_, hone ∘ hswap.mpr, hzero ∘ hswap.not.mpr⟩
  by_cases hc : Covers s x y n r c
  · rw [hinv' r c hc, hinv r c hc, Bool.not_not]
  · rw [hkeep' r c hc, hkeep r c hc]

/-! ### The edge policies -/

/-- On the screen there is nothing to drop and nothing to reduce (R173). -/
theorem place_clip_eq_wrap {cx cy : Nat} (hx : cx < 64) (hy : cy < 32) : place .clip cx cy = place .wrap cx cy :=
  (place_clip (r := ⟨cy, hy⟩) (c := ⟨cx, hx⟩)).mpr ⟨rfl, rfl⟩ |>.trans
    (place_wrap.mpr ⟨Nat.mod_eq_of_lt hx, Nat.mod_eq_of_lt hy⟩).symm

theorem rowTargets_clip_eq_wrap {x0 cy : Nat} (b : Byte) (hx : x0 + 7 < 64) (hy : cy < 32) :
    rowTargets .clip x0 cy b = rowTargets .wrap x0 cy b := by
  refine List.filterMap_congr fun col hcol => ?_
  have hlt : col < 8 := List.mem_range.mp hcol
  rw [place_clip_eq_wrap (by omega) hy]

theorem spriteTargets_clip_eq_wrap {x0 cy : Nat} (bs : List Byte) (hx : x0 + 7 < 64) (hy : cy + bs.length ≤ 32) :
    spriteTargets .clip x0 cy bs = spriteTargets .wrap x0 cy bs := by
  induction bs generalizing cy with
  | nil => rfl
  | cons b bs ih =>
    rw [List.length_cons] at hy
    rw [spriteTargets, spriteTargets, rowTargets_clip_eq_wrap b hx (by omega), ih (by omega)]

/-- Settles O51: both policies draw the same targets, and the bounds check does not look at the policy. -/
theorem edgePoliciesAgreeOnScreen : Obligations.EdgePoliciesAgreeOnScreen := by
  intro x y n s hx hy
  rcases execDrw_cases x y n { s with cfg := { s.cfg with edgePolicy := .clip } } with ⟨h, hin⟩ | ⟨h, hn, hout⟩
  · refine ⟨_, _, h, exec_drw_inside (s := { s with cfg := { s.cfg with edgePolicy := .wrap } }) x y hin, ?_⟩
    have hsame := spriteTargets_clip_eq_wrap (s.mem.getAll (s.dataAddr 0) n.toNat) hx
      (cy := (s.V y).toNat) (by rw [Memory.length_getAll]; exact hy)
    simp only [drawSprite, drawRows_eq]
    exact hsame ▸ rfl
  · exact ⟨_, _, h, exec_of_error (s := { s with cfg := { s.cfg with edgePolicy := .wrap } }) (i := .drw x y n)
      (dataError_outside hn hout), rfl⟩

end Sys2Proof.Machine
end

section
/-! PROOFS. Keys and the key wait: the two key events, the three ways through LD_VX_K, and which events end a wait
(44_input_timer.md R194 to R204). -/

namespace Sys2Proof.Machine

open Host.Outcome

/-! ### The key events -/

/-- Settles O54: the latch gains the key, and in Waiting the pending set does too. -/
theorem keyDownSetsLatchAndPending : Obligations.KeyDownSetsLatchAndPending := by
  intro k s
  have hframe : keyDown k s = { s with keys := (keyDown k s).keys, kw := (keyDown k s).kw } := rfl
  refine ⟨fun j => KeySet.has_insert s.keys k j, ?_⟩
  cases hw : s.kw.waiting with
  | false =>
    have hkw := keyDown_kw_idle k hw
    refine ⟨fun j => ?pending, hframe.trans (by rw [hkw])⟩
    case pending => rw [hkw, Bool.false_and, Bool.false_or]
  | true =>
    have hkw := keyDown_kw_waiting k hw
    refine ⟨fun j => ?pending, hframe.trans (by rw [hkw])⟩
    case pending => rw [hkw, Bool.true_and]; exact KeySet.has_insert s.kw.pending k j

/-- Settles O55: the latch loses the key, and the completed key becomes it only in a wait that has it pending. -/
theorem keyUpClearsLatchAndCompletes : Obligations.KeyUpClearsLatchAndCompletes := by
  intro k s
  have hframe : keyUp k s = { s with keys := (keyUp k s).keys, kw := (keyUp k s).kw } := rfl
  refine ⟨fun j => KeySet.has_erase s.keys k j, fun hw hp => by rw [keyUp_kw_pending hw hp],
    fun h => by rw [keyUp_kw_other h], hframe.trans ?_⟩
  by_cases hcounts : s.kw.waiting = true ∧ s.kw.pending.has k = true
  · rw [keyUp_kw_pending hcounts.1 hcounts.2]
  · rw [keyUp_kw_other hcounts]

/-! ### The ways through LD_VX_K -/

/-- Settles O56: in Idle LD_VX_K writes the key wait alone, whatever the latch holds. -/
theorem keyWaitEntersWaiting : Obligations.KeyWaitEntersWaiting :=
  fun x _ hw => ⟨_, exec_ldVxK_idle x hw, rfl, KeySet.has_empty, rfl, rfl, fun _ => rfl, rfl⟩

/-- Settles O58: the completed key goes to V[x] and the key wait to that of reset. -/
theorem keyWaitCompletes : Obligations.KeyWaitCompletes := by
  intro x k j s hw hc hp
  have hV : ((s.setV x (keyByte k)).V x).toNat = k.val := by rw [V_setV_same, keyByte_toNat]
  exact ⟨_, exec_ldVxK_completed x hw hc (KeySet.ne_empty_of_has hp), hV, rfl, KeySet.has_empty, rfl,
    advance_pc_toNat _, fun r hr => V_setV_other s _ hr, fun _ => rfl, rfl⟩

/-! ### Which events end a wait -/

theorem step_poll {x : RegIdx} {s : State} (hf : s.fault = none) (hnext : nextInstr s = some (.ldVxK x))
    (hw : s.kw.waiting = true) (hc : s.kw.completed = none) : step s = next s :=
  (step_run hf hnext).trans (exec_ldVxK_poll x hw hc)

/-- A press that falls into a wait without a completed key leaves the next step polling. -/
theorem runTransactions_press_step {x : RegIdx} {s : State} (k : KeyIdx) (hf : s.fault = none)
    (hnext : nextInstr s = some (.ldVxK x)) (hw : s.kw.waiting = true) (hc : s.kw.completed = none) :
    runTransactions [.event (.keyDown k), .step] s = next (keyDown k s) := by
  have hkw := keyDown_kw_waiting k hw
  have hstep : step (keyDown k s) = next (keyDown k s) :=
    step_poll hf ((nextInstr_deliver (.keyDown k) s).trans hnext) (by rw [hkw]; exact hw) (by rw [hkw]; exact hc)
  calc runTransactions [.event (.keyDown k), .step] s
    _ = runTransactions [.step] (keyDown k s) := runTransactions_cons rfl [.step]
    _ = next (keyDown k s) := runTransactions_cons (tr := .step) hstep []

/-- The release of a pending key makes the next step complete the wait with it. -/
theorem runTransactions_release_step {x : RegIdx} {s : State} {k : KeyIdx} (hf : s.fault = none)
    (hnext : nextInstr s = some (.ldVxK x)) (hw : s.kw.waiting = true) (hp : s.kw.pending.has k = true) :
    runTransactions [.event (.keyUp k), .step] s =
      next { s with v := s.v.set x (keyByte k), keys := s.keys.erase k, kw := KeyWait.idle }.advance := by
  have hkw := keyUp_kw_pending hw hp
  have hstep : step (keyUp k s) =
      next { s with v := s.v.set x (keyByte k), keys := s.keys.erase k, kw := KeyWait.idle }.advance :=
    (step_run (s := keyUp k s) hf ((nextInstr_deliver (.keyUp k) s).trans hnext)).trans
      (exec_ldVxK_completed x (by rw [hkw]; exact hw) (by rw [hkw]) (KeySet.ne_empty_of_has (by rw [hkw]; exact hp)))
  calc runTransactions [.event (.keyUp k), .step] s
    _ = runTransactions [.step] (keyUp k s) := runTransactions_cons rfl [.step]
    _ = _ := runTransactions_cons (tr := .step) hstep []

/-- Settles O59: the first step enters the wait, in which the key is then pressed and released. -/
theorem pressThenReleaseEndsTheWait : Obligations.PressThenReleaseEndsTheWait := by
  intro x k s hf hw hnext
  have henter : step s = next { s with kw := KeyWait.entered } := (step_run hf hnext).trans (exec_ldVxK_idle x hw)
  have hpress := runTransactions_press_step (s := { s with kw := KeyWait.entered }) k hf
    ((nextInstr_congr rfl rfl rfl).trans hnext) rfl rfl
  have hkw : (keyDown k { s with kw := KeyWait.entered }).kw =
      { KeyWait.entered with pending := KeySet.empty.insert k } := keyDown_kw_waiting k rfl
  have hpending : (keyDown k { s with kw := KeyWait.entered }).kw.pending.has k = true := by
    simp [hkw, KeySet.has_insert]
  have hrelease := runTransactions_release_step (s := keyDown k { s with kw := KeyWait.entered }) hf
    ((nextInstr_congr rfl rfl rfl).trans hnext) (by rw [hkw]; rfl) hpending
  refine ⟨_, _, (runTransactions_cons (tr := .step) henter _).trans hpress, rfl, rfl, hrelease, ?value, rfl, rfl, ?up⟩
  case value => rw [← keyByte_toNat k]; exact congrArg BitVec.toNat (V_setV_same _ x (keyByte k))
  case up => exact (KeySet.has_erase _ k k).trans (by simp)

/-- A wait goes on through an event that is no release of a pending key; the event makes a key pending only by
pressing it. -/
theorem deliver_keeps_wait {s : State} {e : HostEvent} (hw : s.kw.waiting = true) (hc : s.kw.completed = none)
    (hup : ∀ k, e = .keyUp k → s.kw.pending.has k = false) :
    (e.deliver s).kw.waiting = true ∧ (e.deliver s).kw.completed = none ∧
      ∀ j, (e.deliver s).kw.pending.has j = true → s.kw.pending.has j = true ∨ e = .keyDown j := by
  cases e with
  | keyDown k =>
    have hkw : (HostEvent.deliver (.keyDown k) s).kw = { s.kw with pending := s.kw.pending.insert k } :=
      keyDown_kw_waiting k hw
    rw [hkw]
    refine ⟨hw, hc, fun j hj => ?_⟩
    rw [KeySet.has_insert, Bool.or_eq_true, decide_eq_true_iff] at hj
    rcases hj with rfl | hj
    · exact .inr rfl
    · exact .inl hj
  | keyUp k =>
    have hkw : (HostEvent.deliver (.keyUp k) s).kw = s.kw := keyUp_kw_other fun h => by
      rw [hup k rfl] at h
      cases h.2
    rw [hkw]
    exact ⟨hw, hc, fun j hj => .inl hj⟩
  | tick => exact ⟨hw, hc, fun j hj => .inl hj⟩

/-- No event of a list without a qualifying release completes a wait (R199). -/
theorem deliverAll_keeps_wait {s : State} {es : List HostEvent} (hw : s.kw.waiting = true)
    (hc : s.kw.completed = none) (hes : NoQualifyingRelease s.kw.pending es) :
    (deliverAll es s).kw.waiting = true ∧ (deliverAll es s).kw.completed = none := by
  induction es generalizing s with
  | nil => exact ⟨hw, hc⟩
  | cons e es ih =>
    have hup : ∀ k, e = .keyUp k → s.kw.pending.has k = false := by
      rintro k rfl
      exact (hes k [] es rfl).1
    obtain ⟨hw', hc', hpending⟩ := deliver_keeps_wait hw hc hup
    refine ih hw' hc' fun k before rest hsplit => ?_
    obtain ⟨hnot, hpress⟩ := hes k (e :: before) rest (by rw [hsplit]; rfl)
    rw [List.mem_cons, not_or] at hpress
    refine ⟨Bool.eq_false_iff.mpr fun hhas => ?_, hpress.2⟩
    rcases hpending k hhas with hold | rfl
    · rw [hnot] at hold
      cases hold
    · exact hpress.1 rfl

/-- Settles O60: the wait is still open after the events, so the step polls. -/
theorem otherEventsDoNotEndTheWait : Obligations.OtherEventsDoNotEndTheWait := by
  intro x s es hf hw hc hnext hes
  obtain ⟨hw', hc'⟩ := deliverAll_keeps_wait hw hc hes
  have hframe := deliverAll_frame es s
  have hfault : (deliverAll es s).fault = none := by rw [hframe]; exact hf
  have hpoll : step (deliverAll es s) = next (deliverAll es s) :=
    step_poll hfault ((nextInstr_deliverAll es s).trans hnext) hw' hc'
  exact ⟨hpoll, hw', hc', by rw [hframe], by rw [hframe]⟩

end Sys2Proof.Machine
end
